-- ==== Sys2Proof/Config.lean ====
section
/-! DEFINITION. The parameters of rule R6, each a named constant at the spec's value (decision D23), and the one
free choice of an implementation. -/

namespace Sys2Proof

/-- Width of every register and every memory word (R6): the width of `Word`. -/
abbrev Config.xlen : Nat := 32

/-- Number of general registers (R6). -/
abbrev Config.nregs : Nat := 32

/-- Width of the program counter (R6, D4). -/
abbrev Config.pcWidth : Nat := 32

/-- Width of the immediate field (R6). -/
abbrev Config.immWidth : Nat := 16

/-- Width of the jump target field (R6). -/
abbrev Config.targetWidth : Nat := 26

/-- Capacity of instruction memory in words (R6, R22). -/
abbrev Config.imemWords : Nat := 4096

/-- Capacity of data memory in words (R6, R23). -/
abbrev Config.dmemWords : Nat := 1024

/-- What the loop adds to `pc` after every executed instruction (R6, R98). -/
abbrev Config.loopIncrement : BitVec Config.pcWidth := 1

/-- The instruction word that halts, under the condition on `haltReg` (R6, R60). -/
abbrev Config.haltWord : BitVec Config.xlen := 0x0000000C

/-- The register the halt condition reads (R6, R60). -/
abbrev Config.haltReg : Fin Config.nregs := 2

/-- The value `haltReg` must hold for `haltWord` to halt (R6, R60). -/
abbrev Config.haltCode : BitVec Config.xlen := 10

/-- The register `jal` writes (R6, R92). -/
abbrev Config.linkReg : Fin Config.nregs := 31

/-- What `jal` adds to `pc` to form the link value, in word-index units (R6, R92, C5). -/
abbrev Config.linkOffset : BitVec Config.xlen := 4

/-- The left shift applied to a branch immediate (R6, R54). -/
abbrev Config.branchShift : Nat := 2

/-- FREE VALUE (log entry 11). Whether the step of the `sub` at index `pc`, with the operands `a` and `b`, emits its
diagnostic trace: it "may be omitted" and "no claim may depend on it" (R112, I9). -/
opaque Config.emitsSubTrace (pc : BitVec Config.pcWidth) (a b : BitVec Config.xlen) : Bool

end Sys2Proof
end

