-- ==== Sys2Proof/Word.lean ====
section
/-! DEFINITION. The word, the program counter and the operand types of the spimulator CORE, in the widths that Config gives
them (R6). -/

namespace Sys2Proof

/-- A register value or a memory word: an unsigned number of XLEN bits (R6, R8, R13). -/
abbrev Word := BitVec Config.xlen

/-- A program counter value: a word index of PC_WIDTH bits (R6, R17, R18). -/
abbrev Pc := BitVec Config.pcWidth

/-- The number of a general register, 0 to NREGS - 1 (R6, R13, R56). No number is special (R14). -/
abbrev Reg := Fin Config.nregs

/-- A shift amount, 0 to 31: the 5-bit field of R51 (R77). -/
abbrev Shamt := Fin 32

/-- The immediate field, of IMM_WIDTH bits, always zero-extended (R6, R51, R53). -/
abbrev Imm := BitVec Config.immWidth

/-- The jump target field, of TARGET_WIDTH bits, always zero-extended (R6, R51, R55). -/
abbrev Target := BitVec Config.targetWidth

end Sys2Proof
end

