-- ==== Sys2Proof/Syntax.lean ====
section
/-! DEFINITION. The instructions: one constructor for each row of spec/opcode_table.json. -/

namespace Sys2Proof

/-- The 20 decodable operations (R2). Operands stand in the order of the assembler syntax (R66). Where the encoding has
a field the instruction ignores (`shamt` of an R-type ALU word, `rs` of a shift word: R56), that field is the LAST
argument, so that the instruction still determines its word; no meaning reads it (log entry 5).
`slti` has no constructor, because no word encodes it (R64, R83). -/
inductive Instr where
  /-- `halt` (R69). -/
  | halt
  /-- `nop` (R70). -/
  | nop
  /-- `add rd, rs, rt` (R72). -/
  | add (rd rs rt : Reg) (shamt : Shamt)
  /-- `and rd, rs, rt` (R73). -/
  | and (rd rs rt : Reg) (shamt : Shamt)
  /-- `nor rd, rs, rt` (R74). -/
  | nor (rd rs rt : Reg) (shamt : Shamt)
  /-- `or rd, rs, rt` (R75). -/
  | or (rd rs rt : Reg) (shamt : Shamt)
  /-- `slt rd, rs, rt` (R76). -/
  | slt (rd rs rt : Reg) (shamt : Shamt)
  /-- `sll rd, rt, shamt` (R77). -/
  | sll (rd rt : Reg) (shamt : Shamt) (rs : Reg)
  /-- `sra rd, rt, shamt` (R78). -/
  | sra (rd rt : Reg) (shamt : Shamt) (rs : Reg)
  /-- `srl rd, rt, shamt` (R79). -/
  | srl (rd rt : Reg) (shamt : Shamt) (rs : Reg)
  /-- `sub rd, rs, rt` (R80). -/
  | sub (rd rs rt : Reg) (shamt : Shamt)
  /-- `addi rt, rs, imm` (R82). -/
  | addi (rt rs : Reg) (imm : Imm)
  /-- `andi rt, rs, imm` (R84). -/
  | andi (rt rs : Reg) (imm : Imm)
  /-- `ori rt, rs, imm` (R85). -/
  | ori (rt rs : Reg) (imm : Imm)
  /-- `lw rt, imm(rs)` (R86). -/
  | lw (rt rs : Reg) (imm : Imm)
  /-- `sw rt, imm(rs)` (R87). -/
  | sw (rt rs : Reg) (imm : Imm)
  /-- `beq rs, rt, imm` (R89). -/
  | beq (rs rt : Reg) (imm : Imm)
  /-- `bne rs, rt, imm` (R90). -/
  | bne (rs rt : Reg) (imm : Imm)
  /-- `j target` (R91). -/
  | j (target : Target)
  /-- `jal target` (R92). -/
  | jal (target : Target)
  deriving DecidableEq, Repr

end Sys2Proof
end

