-- ==== Sys2Proof/WellFormed.lean ====
section
/-! DEFINITION. Which instructions have a word of their own. -/

namespace Sys2Proof

/-- An instruction is well formed when its encoding decodes to it. The types of the operands give every field its
width, so one check is left: `sll $0, $0, 0` with `rs = 0` would be the word 0, and that word is NOP (R61, R68). -/
def Instr.wf : Instr → Bool
  | .sll rd rt shamt rs => !(rd == 0 && rt == 0 && shamt == 0 && rs == 0)
  | .halt | .nop => true
  | .add _ _ _ _ | .and _ _ _ _ | .nor _ _ _ _ | .or _ _ _ _ | .slt _ _ _ _ | .sub _ _ _ _ => true
  | .sra _ _ _ _ | .srl _ _ _ _ => true
  | .addi _ _ _ | .andi _ _ _ | .ori _ _ _ => true
  | .lw _ _ _ | .sw _ _ _ => true
  | .beq _ _ _ | .bne _ _ _ => true
  | .j _ | .jal _ => true

end Sys2Proof
end

