-- ==== Sys2Proof/Decode.lean ====
section
/-! DEFINITION. The decoder of rules R51 to R64, the encoder of rule R68, and the table's match and mask words. -/

namespace Sys2Proof

/-- Why a word decodes to UNSUPPORTED (R62). -/
inductive Unsupported where
  /-- No row has this opcode (R58). -/
  | opcode (op : BitVec 6)
  /-- The opcode is 0 and no row has this funct (R59). Funct 12 here includes the halt word when x[2] is not 10 (R60). -/
  | funct (fn : BitVec 6)
  deriving DecidableEq, Repr

/-! ## The fields of a word (R51) -/

/-- The register that the 5-bit field at bit `lo` names (R51, R56). With NREGS = 32 every field value is a register
number, so the reduction of `Fin.ofNat` never acts. -/
def regField (w : Word) (lo : Nat) : Reg := Fin.ofNat Config.nregs (w.extractLsb' lo 5).toNat

/-- `w[31:26]`. -/
def opcodeField (w : Word) : BitVec 6 := w.extractLsb' 26 6

/-- `w[25:21]`. -/
def rsField (w : Word) : Reg := regField w 21

/-- `w[20:16]`. -/
def rtField (w : Word) : Reg := regField w 16

/-- `w[15:11]`. -/
def rdField (w : Word) : Reg := regField w 11

/-- `w[10:6]`. -/
def shamtField (w : Word) : Shamt := (w.extractLsb' 6 5).toFin

/-- `w[5:0]`. -/
def functField (w : Word) : BitVec 6 := w.extractLsb' 0 6

/-- `w[15:0]`. -/
def immField (w : Word) : Imm := w.extractLsb' 0 Config.immWidth

/-- `w[25:0]`. -/
def targetField (w : Word) : Target := w.extractLsb' 0 Config.targetWidth

/-! ## The decoder (R57) -/

/-- The rows of opcode 0, by funct (R59). -/
def decodeFunct (w : Word) : Except Unsupported Instr :=
  match (functField w).toNat with
  | 32 => .ok (.add (rdField w) (rsField w) (rtField w) (shamtField w))
  | 36 => .ok (.and (rdField w) (rsField w) (rtField w) (shamtField w))
  | 39 => .ok (.nor (rdField w) (rsField w) (rtField w) (shamtField w))
  | 37 => .ok (.or (rdField w) (rsField w) (rtField w) (shamtField w))
  | 42 => .ok (.slt (rdField w) (rsField w) (rtField w) (shamtField w))
  | 0 => .ok (.sll (rdField w) (rtField w) (shamtField w) (rsField w))
  | 3 => .ok (.sra (rdField w) (rtField w) (shamtField w) (rsField w))
  | 2 => .ok (.srl (rdField w) (rtField w) (shamtField w) (rsField w))
  | 34 => .ok (.sub (rdField w) (rsField w) (rtField w) (shamtField w))
  | _ => .error (.funct (functField w))

/-- The rows of the other opcodes (R58). -/
def decodeOpcode (w : Word) : Except Unsupported Instr :=
  match (opcodeField w).toNat with
  | 8 => .ok (.addi (rtField w) (rsField w) (immField w))
  | 12 => .ok (.andi (rtField w) (rsField w) (immField w))
  | 13 => .ok (.ori (rtField w) (rsField w) (immField w))
  | 35 => .ok (.lw (rtField w) (rsField w) (immField w))
  | 43 => .ok (.sw (rtField w) (rsField w) (immField w))
  | 4 => .ok (.beq (rsField w) (rtField w) (immField w))
  | 5 => .ok (.bne (rsField w) (rtField w) (immField w))
  | 2 => .ok (.j (targetField w))
  | 3 => .ok (.jal (targetField w))
  | _ => .error (.opcode (opcodeField w))

/-- `Decode(w, x)` of R57; the register file enters through `x[HALT_REG]` alone (R60). The first row that matches wins:
halt, NOP, then opcode and funct. -/
def decode (w haltRegValue : Word) : Except Unsupported Instr :=
  if w = Config.haltWord ∧ haltRegValue = Config.haltCode then .ok .halt
  else if w = 0 then .ok .nop
  else if opcodeField w = 0 then decodeFunct w
  else decodeOpcode w

/-! ## The encoder (R68) -/

/-- The R-type layout, opcode 0 (R52, R68). -/
def encodeR (rs rt rd : Reg) (shamt : Shamt) (funct : BitVec 6) : Word :=
  BitVec.ofNat Config.xlen rs.val <<< 21 ||| BitVec.ofNat Config.xlen rt.val <<< 16 ||| BitVec.ofNat Config.xlen rd.val <<< 11
    ||| BitVec.ofNat Config.xlen shamt.val <<< 6 ||| funct.setWidth Config.xlen

/-- The I-type layout (R52, R68). -/
def encodeI (opcode : BitVec 6) (rs rt : Reg) (imm : Imm) : Word :=
  opcode.setWidth Config.xlen <<< 26 ||| BitVec.ofNat Config.xlen rs.val <<< 21 ||| BitVec.ofNat Config.xlen rt.val <<< 16 ||| imm.setWidth Config.xlen

/-- The J-type layout (R52, R68). -/
def encodeJ (opcode : BitVec 6) (target : Target) : Word :=
  opcode.setWidth Config.xlen <<< 26 ||| target.setWidth Config.xlen

/-- The word of an instruction (R58, R59, R60, R61, R68). -/
def encode : Instr → Word
  | .halt => Config.haltWord
  | .nop => 0
  | .add rd rs rt shamt => encodeR rs rt rd shamt 32
  | .and rd rs rt shamt => encodeR rs rt rd shamt 36
  | .nor rd rs rt shamt => encodeR rs rt rd shamt 39
  | .or rd rs rt shamt => encodeR rs rt rd shamt 37
  | .slt rd rs rt shamt => encodeR rs rt rd shamt 42
  | .sll rd rt shamt rs => encodeR rs rt rd shamt 0
  | .sra rd rt shamt rs => encodeR rs rt rd shamt 3
  | .srl rd rt shamt rs => encodeR rs rt rd shamt 2
  | .sub rd rs rt shamt => encodeR rs rt rd shamt 34
  | .addi rt rs imm => encodeI 8 rs rt imm
  | .andi rt rs imm => encodeI 12 rs rt imm
  | .ori rt rs imm => encodeI 13 rs rt imm
  | .lw rt rs imm => encodeI 35 rs rt imm
  | .sw rt rs imm => encodeI 43 rs rt imm
  | .beq rs rt imm => encodeI 4 rs rt imm
  | .bne rs rt imm => encodeI 5 rs rt imm
  | .j target => encodeJ 2 target
  | .jal target => encodeJ 3 target

/-! ## The rows of the opcode table -/

/-- The mask of the instruction's row in spec/opcode_table.json. -/
def Instr.tableMask : Instr → Word
  | .halt | .nop => 0xFFFFFFFF
  | .add _ _ _ _ | .and _ _ _ _ | .nor _ _ _ _ | .or _ _ _ _ | .slt _ _ _ _ | .sub _ _ _ _ => 0xFC00003F
  | .sll _ _ _ _ | .sra _ _ _ _ | .srl _ _ _ _ => 0xFC00003F
  | .addi _ _ _ | .andi _ _ _ | .ori _ _ _ | .lw _ _ _ | .sw _ _ _ | .beq _ _ _ | .bne _ _ _ => 0xFC000000
  | .j _ | .jal _ => 0xFC000000

/-- The match word of the instruction's row in spec/opcode_table.json. -/
def Instr.tableMatch : Instr → Word
  | .halt => 0x0000000C
  | .nop => 0x00000000
  | .add _ _ _ _ => 0x00000020
  | .and _ _ _ _ => 0x00000024
  | .nor _ _ _ _ => 0x00000027
  | .or _ _ _ _ => 0x00000025
  | .slt _ _ _ _ => 0x0000002A
  | .sll _ _ _ _ => 0x00000000
  | .sra _ _ _ _ => 0x00000003
  | .srl _ _ _ _ => 0x00000002
  | .sub _ _ _ _ => 0x00000022
  | .addi _ _ _ => 0x20000000
  | .andi _ _ _ => 0x30000000
  | .ori _ _ _ => 0x34000000
  | .lw _ _ _ => 0x8C000000
  | .sw _ _ _ => 0xAC000000
  | .beq _ _ _ => 0x10000000
  | .bne _ _ _ => 0x14000000
  | .j _ => 0x08000000
  | .jal _ => 0x0C000000

/-! ## The table's words, for the host -/

/-- The instruction word whose low `nbits` bits are those of `w` and whose other bits are 0. -/
def tableWord (nbits w : Nat) : Word := BitVec.ofNat Config.xlen (w % 2 ^ nbits)

/-- The instruction the decoder reads from a table word. The halt row carries the condition x[2] = 10, so the word is
decoded with that value in the halt register; no other row looks at it (R60; log entry 3). -/
def decodeTableWord (nbits w : Nat) : Option Instr :=
  match decode (tableWord nbits w) Config.haltCode with
  | .ok i => some i
  | .error _ => none

end Sys2Proof
end

