-- ==== Sys2Proof/Machine/State.lean ====
section
/-! DEFINITION. The state of the core (R31), its reset value (R29, R127), and the reasons a transaction can stop. -/

namespace Sys2Proof.Machine

/-! ## Memory (R32, R33) -/

/-- One word of memory at a word index. The spec's unit is the 32-bit word: no address names a byte, and no byte order
exists (R33, R34; log entry 1). -/
abbrev WordCell := Nat × Word

/-- A memory: the words that differ from `Memory.unlisted`, indices strictly rising (`Memory.wf`). -/
abbrev Memory := List WordCell

/-- What an unlisted index reads as: the reset content of both memories (R29). -/
abbrev Memory.unlisted : Word := 0

/-- The canonical form of a memory of `size` words: indices strictly rising and below `size`, and no listed word equal
to `Memory.unlisted`. Equal memories are then equal lists. -/
abbrev Memory.wf (size : Nat) (m : Memory) : Prop :=
  m.Pairwise (fun a b => a.1 < b.1) ∧ ∀ c ∈ m, c.1 < size ∧ c.2 ≠ Memory.unlisted

/-- The two address spaces (R32). -/
inductive Space where
  /-- Instruction memory: reached by fetch only. -/
  | instruction
  /-- Data memory: reached by `lw` and `sw` only. -/
  | data
  deriving DecidableEq, Repr

/-- The number of words of a space (R32). -/
abbrev Space.words : Space → Nat
  | .instruction => Config.imemWords
  | .data => Config.dmemWords

/-! ## Stop status and event log (R20, R21) -/

/-- Which instruction made an out-of-bounds access (R102). -/
inductive AccessOp where
  | lw
  | sw
  deriving DecidableEq, Repr

/-- The stop status (R20). Every value but `running` is terminal (R104). -/
inductive StopStatus where
  /-- RUNNING: the core can still take a step. -/
  | running
  /-- HALTED: the halt instruction fired; the normal stop. -/
  | halted
  /-- NEVER_TERMINATED: `pc` reached or passed the end of instruction memory while RunFlag was true. -/
  | neverTerminated
  /-- FAULT_OOB: the `op` at index `pc` computed the effective address `addr`, outside data memory. -/
  | faultOob (pc : Pc) (addr : Word) (op : AccessOp)
  deriving DecidableEq, Repr

/-- `UnsupportedInstruction(pc, w)`: one record of the event log (R21). -/
structure UnsupportedEvent where
  pc : Pc
  word : Word
  deriving DecidableEq, Repr

/-! ## The state -/

/-- The complete state of the core (R31). -/
structure State where
  /-- The general registers (R13). -/
  x : Vector Word Config.nregs
  /-- The program counter, a word index (R17). -/
  pc : Pc
  /-- Instruction memory (R22). -/
  imem : Memory
  /-- Data memory (R23). -/
  dmem : Memory
  /-- RunFlag (R19). -/
  runFlag : Bool
  /-- The stop status (R20). -/
  status : StopStatus
  /-- The event log, oldest record first (R21). -/
  log : List UnsupportedEvent
  deriving DecidableEq, Repr

/-- The state of construction, which reset restores (R29, R127). -/
def State.reset : State where
  x := Vector.replicate Config.nregs 0
  pc := 0
  imem := []
  dmem := []
  runFlag := true
  status := .running
  log := []

/-! ## Why a transaction stops -/

/-- The faults. `step` and `exec` raise none: an out-of-bounds access is the status FAULT_OOB, a next state (R102). -/
inductive Fault where
  /-- Raised by the host port (`hostWrite`, and `clkEdge` through it) when `sel` and `addr` name no word: `sel = 3`, or
  an index beyond the selected target (R106 gives no meaning). Safe: the model stops (log entry 9). -/
  | hostPortNoWord (sel : BitVec 2) (addr : BitVec 12)
  deriving DecidableEq, Repr

/-- The refusals. `step` answers none of them. -/
inductive Refusal where
  /-- Raised by an arm of `exec` that has no meaning yet; no arm is one. Safe. -/
  | notModelled (mnemonic : String)
  /-- Raised by the host load when more words are supplied than the target holds (R108, R119). Safe: after a refused
  load the core must not be run (D13). -/
  | capacityExceeded (target : Space)
  /-- Raised by the host load when line `line` is no hexadecimal integer or needs more than 32 bits (R108, R119, D14).
  Safe, as above. -/
  | malformedInput (line : Nat)
  deriving DecidableEq, Repr

end Sys2Proof.Machine
end

