-- ==== Sys2Proof/Machine/Flags.lean ====
section
/-! DEFINITION. RunFlag and the stop status. The core has no condition codes (R26), so these are all its flags. -/

namespace Sys2Proof.Machine

/-- `RunFlag <- false` (R9, R19). -/
def State.clearRunFlag (s : State) : State := { s with runFlag := false }

/-- The status that RunFlag and `pc` call for (the last lines of R96): a cleared RunFlag is HALTED even when `pc` is past
the end (R99, D7), and otherwise a `pc` past the end is NEVER_TERMINATED (R100). -/
def stopStatus (runFlag : Bool) (pc : Pc) : StopStatus :=
  if runFlag = false then .halted
  else if Config.imemWords ≤ pc.toNat then .neverTerminated
  else .running

/-- The code of a status on the `status` output (R20, R106). -/
def StopStatus.code : StopStatus → BitVec 2
  | .running => 0
  | .halted => 1
  | .neverTerminated => 2
  | .faultOob _ _ _ => 3

end Sys2Proof.Machine
end

