-- ==== Sys2Proof/Machine/Ops.lean ====
section
/-! DEFINITION. The shared operations: registers, the two memories, the out-of-bounds condition, the event log and the
loop increment. -/

namespace Sys2Proof.Machine

/-! ## Registers (R9, R13, R14): no index is special -/

/-- `x[r]`. -/
def State.readReg (s : State) (r : Reg) : Word := s.x.get r

/-- `x[r] <- v`. -/
def State.writeReg (s : State) (r : Reg) (v : Word) : State := { s with x := s.x.set r.val v r.isLt }

/-- `pc <- t`, before the loop increment (R9, R88). -/
def State.setPc (s : State) (t : Pc) : State := { s with pc := t }

/-! ## Memory -/

/-- The word at index `i`. -/
def Memory.read : Memory → Nat → Word
  | [], _ => Memory.unlisted
  | (j, u) :: m, i => if i = j then u else Memory.read m i

/-- Set the word at index `i`, keeping the canonical form. -/
def Memory.write : Memory → Nat → Word → Memory
  | [], i, v => if v = Memory.unlisted then [] else [(i, v)]
  | (j, u) :: m, i, v =>
    if i < j then (if v = Memory.unlisted then (j, u) :: m else (i, v) :: (j, u) :: m)
    else if i = j then (if v = Memory.unlisted then m else (i, v) :: m)
    else (j, u) :: Memory.write m i v

/-- `IMemRead(i)` (R39). -/
def State.readInstr (s : State) (i : Nat) : Word := Memory.read s.imem i

/-- The host's write of a word of instruction memory; no instruction has it (R22, R47). -/
def State.writeInstr (s : State) (i : Nat) (v : Word) : State := { s with imem := Memory.write s.imem i v }

/-- `MemRead(i, 4)` (R40), for an index inside data memory. -/
def State.readData (s : State) (i : Nat) : Word := Memory.read s.dmem i

/-- `MemWrite(i, 4, v)` (R40), for an index inside data memory. -/
def State.writeData (s : State) (i : Nat) (v : Word) : State := { s with dmem := Memory.write s.dmem i v }

/-- Whether an effective address is inside data memory (R42). -/
def inDataMemory (ea : Word) : Bool := ea.toNat < Config.dmemWords

/-! ## Conditions -/

/-- `raise OutOfBoundsMemoryAccess(pc, ea, op)`: the core stops with FAULT_OOB and nothing else changes (R102, R116).
This is all there is of an exception on this core: no entry, no saved state, no handler and no return (R113, R121, R122). -/
def State.raiseOutOfBounds (s : State) (ea : Word) (op : AccessOp) : State := { s with status := .faultOob s.pc ea op }

/-- `log UnsupportedInstruction(pc, w)` (R101, R115). -/
def State.logUnsupported (s : State) (w : Word) : State := { s with log := s.log ++ [⟨s.pc, w⟩] }

/-! ## The loop -/

/-- The fetched word, `IMemRead(pc)` (R96). -/
def State.fetch (s : State) : Word := s.readInstr s.pc.toNat

/-- Set the stop status. -/
def State.setStatus (s : State) (st : StopStatus) : State := { s with status := st }

/-- The end of a step, after the instruction's own effect: the loop adds 1 to `pc`, whether or not the instruction wrote
it (R98), and the status is computed from the new `pc` and RunFlag (R99, R100). A step that raised FAULT_OOB ended at
once: its `pc` is not advanced (R102). -/
def State.finishStep (s : State) : State :=
  match s.status with
  | .faultOob _ _ _ => s
  | .running | .halted | .neverTerminated =>
    { s with
      pc := s.pc + Config.loopIncrement
      status := stopStatus s.runFlag (s.pc + Config.loopIncrement) }

/-- Apply `f` to a next state; a fault and a refusal pass unchanged. -/
def mapNext (f : State → State) : Host.Outcome State Fault Refusal → Host.Outcome State Fault Refusal
  | .next s => .next (f s)
  | .fault e => .fault e
  | .refused e => .refused e

end Sys2Proof.Machine
end

