-- ==== Sys2Proof/Machine/Operands.lean ====
section
/-! DEFINITION. Every operand form: the zero-extended immediate and target, the effective address, the branch and jump
targets, the link value. -/

namespace Sys2Proof.Machine

/-- `zext_32(w[15:0])`: the immediate, never sign-extended (R53). -/
def zextImm (imm : Imm) : Word := imm.setWidth Config.xlen

/-- The branch offset `zext_32(w[15:0]) << BRANCH_SHIFT`, in words (R54). -/
def branchOffset (imm : Imm) : Pc := imm.setWidth Config.pcWidth <<< Config.branchShift

/-- The nominal target of a taken branch, `pc + (imm << 2)` (R88, R89), before the loop increment. -/
def branchTarget (imm : Imm) (s : State) : Pc := s.pc + branchOffset imm

/-- The nominal target of a jump, `zext_32(w[25:0])`: absolute, neither shifted nor combined with `pc` (R55). -/
def jumpTarget (target : Target) : Pc := target.setWidth Config.pcWidth

/-- The effective address `(x[rs] + zext_32(w[15:0])) mod 2^32`, a word index (R41). -/
def effectiveAddress (rs : Reg) (imm : Imm) (s : State) : Word := s.readReg rs + zextImm imm

/-- The link value of `jal`: `pc + LINK_OFFSET`, from the `pc` of the `jal` itself (R92). -/
def linkValue (s : State) : Word := s.pc.setWidth Config.xlen + Config.linkOffset

/-- A register-register operation: `x[rd] <- f x[rs] x[rt]`, sources read before the write (R71). -/
def writeRegReg (f : Word → Word → Word) (rd rs rt : Reg) (s : State) : State :=
  s.writeReg rd (f (s.readReg rs) (s.readReg rt))

/-- A shift: `x[rd] <- f x[rt] shamt`; the `rs` field is ignored (R16, R56). -/
def writeShift (f : Word → Nat → Word) (rd rt : Reg) (shamt : Shamt) (s : State) : State :=
  s.writeReg rd (f (s.readReg rt) shamt.val)

/-- A register-immediate operation: `x[rt] <- f x[rs] imm` (R81). -/
def writeRegImm (f : Word → Word → Word) (rt rs : Reg) (imm : Imm) (s : State) : State :=
  s.writeReg rt (f (s.readReg rs) (zextImm imm))

end Sys2Proof.Machine
end

