-- ==== Sys2Proof/Machine/Control.lean ====
section
/-! DEFINITION. The meanings of the control transfers (spec/44_control.md). Each writes the nominal target; the loop then
adds 1 in the same step, so a transfer lands one word past it (R88). -/

namespace Sys2Proof.Machine

/-- `if x[rs] == x[rt] then pc <- pc + (zext_32(w[15:0]) << 2)` (R89). -/
def execBeq (rs rt : Reg) (imm : Imm) (s : State) : Host.Outcome State Fault Refusal :=
  .next (if s.readReg rs = s.readReg rt then s.setPc (branchTarget imm s) else s)

/-- `if x[rs] != x[rt] then pc <- pc + (zext_32(w[15:0]) << 2)` (R90). -/
def execBne (rs rt : Reg) (imm : Imm) (s : State) : Host.Outcome State Fault Refusal :=
  .next (if s.readReg rs ≠ s.readReg rt then s.setPc (branchTarget imm s) else s)

/-- `pc <- zext_32(w[25:0])` (R91). -/
def execJ (target : Target) (s : State) : Host.Outcome State Fault Refusal :=
  .next (s.setPc (jumpTarget target))

/-- `x[31] <- pc + 4; pc <- zext_32(w[25:0])` (R92). -/
def execJal (target : Target) (s : State) : Host.Outcome State Fault Refusal :=
  .next ((s.writeReg Config.linkReg (linkValue s)).setPc (jumpTarget target))

end Sys2Proof.Machine
end

