-- ==== Sys2Proof/Machine/IType.lean ====
section
/-! DEFINITION. The meanings of the I-type operations (spec/42_itype_alu.md, family rule R81). -/

namespace Sys2Proof.Machine

/-- `x[rt] <- (x[rs] + zext_32(w[15:0])) mod 2^32` (R82). -/
def execAddi (rt rs : Reg) (imm : Imm) (s : State) : Host.Outcome State Fault Refusal :=
  .next (writeRegImm (fun a b => a + b) rt rs imm s)

/-- `x[rt] <- x[rs] & zext_32(w[15:0])` (R84). -/
def execAndi (rt rs : Reg) (imm : Imm) (s : State) : Host.Outcome State Fault Refusal :=
  .next (writeRegImm (fun a b => a &&& b) rt rs imm s)

/-- `x[rt] <- x[rs] | zext_32(w[15:0])` (R85). -/
def execOri (rt rs : Reg) (imm : Imm) (s : State) : Host.Outcome State Fault Refusal :=
  .next (writeRegImm (fun a b => a ||| b) rt rs imm s)

end Sys2Proof.Machine
end

