-- ==== Sys2Proof/Machine/LoadStore.lean ====
section
/-! DEFINITION. The meanings of `lw` and `sw` (spec/43_load_store.md). An address outside data memory stops the core with
status FAULT_OOB, which is a next state (R42, R102). -/

namespace Sys2Proof.Machine

/-- `EA <- (x[rs] + imm) mod 2^32; if EA >= DMEM_WORDS then raise OutOfBoundsMemoryAccess(pc, EA, LW);
x[rt] <- MemRead(EA, 4)` (R86). -/
def execLw (rt rs : Reg) (imm : Imm) (s : State) : Host.Outcome State Fault Refusal :=
  if inDataMemory (effectiveAddress rs imm s) then
    .next (s.writeReg rt (s.readData (effectiveAddress rs imm s).toNat))
  else .next (s.raiseOutOfBounds (effectiveAddress rs imm s) .lw)

/-- `EA <- (x[rs] + imm) mod 2^32; if EA >= DMEM_WORDS then raise OutOfBoundsMemoryAccess(pc, EA, SW);
MemWrite(EA, 4, x[rt])` (R87). -/
def execSw (rt rs : Reg) (imm : Imm) (s : State) : Host.Outcome State Fault Refusal :=
  if inDataMemory (effectiveAddress rs imm s) then
    .next (s.writeData (effectiveAddress rs imm s).toNat (s.readReg rt))
  else .next (s.raiseOutOfBounds (effectiveAddress rs imm s) .sw)

end Sys2Proof.Machine
end

