-- ==== Sys2Proof/Machine/RType.lean ====
section
/-! DEFINITION. The meanings of the R-type operations (spec/41_rtype_alu.md, family rule R71). -/

namespace Sys2Proof.Machine

/-- `x[rd] <- (x[rs] + x[rt]) mod 2^32` (R72). -/
def execAdd (rd rs rt : Reg) (s : State) : Host.Outcome State Fault Refusal :=
  .next (writeRegReg (fun a b => a + b) rd rs rt s)

/-- `x[rd] <- x[rs] & x[rt]` (R73). -/
def execAnd (rd rs rt : Reg) (s : State) : Host.Outcome State Fault Refusal :=
  .next (writeRegReg (fun a b => a &&& b) rd rs rt s)

/-- `x[rd] <- ~(x[rs] | x[rt]) mod 2^32` (R74). -/
def execNor (rd rs rt : Reg) (s : State) : Host.Outcome State Fault Refusal :=
  .next (writeRegReg (fun a b => ~~~(a ||| b)) rd rs rt s)

/-- `x[rd] <- x[rs] | x[rt]` (R75). -/
def execOr (rd rs rt : Reg) (s : State) : Host.Outcome State Fault Refusal :=
  .next (writeRegReg (fun a b => a ||| b) rd rs rt s)

/-- `x[rd] <- (x[rs] < x[rt]) ? 1 : 0`, comparing unsigned values (R76, D26). -/
def execSlt (rd rs rt : Reg) (s : State) : Host.Outcome State Fault Refusal :=
  .next (writeRegReg (fun a b => if a.toNat < b.toNat then 1 else 0) rd rs rt s)

/-- `x[rd] <- (x[rt] << shamt) mod 2^32` (R77). -/
def execSll (rd rt : Reg) (shamt : Shamt) (s : State) : Host.Outcome State Fault Refusal :=
  .next (writeShift (fun b n => b <<< n) rd rt shamt s)

/-- `x[rd] <- (x[rt] >> shamt) mod 2^32`: a logical shift, despite the name (R78). -/
def execSra (rd rt : Reg) (shamt : Shamt) (s : State) : Host.Outcome State Fault Refusal :=
  .next (writeShift (fun b n => b >>> n) rd rt shamt s)

/-- `x[rd] <- x[rt] >> shamt`, filling with zeros (R79). -/
def execSrl (rd rt : Reg) (shamt : Shamt) (s : State) : Host.Outcome State Fault Refusal :=
  .next (writeShift (fun b n => b >>> n) rd rt shamt s)

/-- `x[rd] <- (x[rs] - x[rt]) mod 2^32` (R80). The diagnostic trace is an output, not state (R112: `subTrace`). -/
def execSub (rd rs rt : Reg) (s : State) : Host.Outcome State Fault Refusal :=
  .next (writeRegReg (fun a b => a - b) rd rs rt s)

end Sys2Proof.Machine
end

