-- ==== Sys2Proof/Machine/Special.lean ====
section
/-! DEFINITION. The meanings of the special words (spec/40_special.md). -/

namespace Sys2Proof.Machine

/-- `halt`: `RunFlag <- false`, and nothing else; the loop then sets HALTED (R69, R99). Its condition x[2] = 10 is part
of decoding (R60). -/
def execHalt (s : State) : Host.Outcome State Fault Refusal := .next s.clearRunFlag

/-- `nop`: no effect (R70). -/
def execNop (s : State) : Host.Outcome State Fault Refusal := .next s

end Sys2Proof.Machine
end

