-- ==== Sys2Proof/Machine/Dispatch.lean ====
section
/-! DEFINITION. Dispatch: the instruction's own effect, before the loop increment (R96). -/

namespace Sys2Proof.Machine

def exec (i : Instr) (s : State) : Host.Outcome State Fault Refusal :=
  match i with
  | .halt => Sys2Proof.Machine.execHalt s
  | .nop => Sys2Proof.Machine.execNop s
  | .add rd rs rt _ => Sys2Proof.Machine.execAdd rd rs rt s
  | .and rd rs rt _ => Sys2Proof.Machine.execAnd rd rs rt s
  | .nor rd rs rt _ => Sys2Proof.Machine.execNor rd rs rt s
  | .or rd rs rt _ => Sys2Proof.Machine.execOr rd rs rt s
  | .slt rd rs rt _ => Sys2Proof.Machine.execSlt rd rs rt s
  | .sll rd rt shamt _ => Sys2Proof.Machine.execSll rd rt shamt s
  | .sra rd rt shamt _ => Sys2Proof.Machine.execSra rd rt shamt s
  | .srl rd rt shamt _ => Sys2Proof.Machine.execSrl rd rt shamt s
  | .sub rd rs rt _ => Sys2Proof.Machine.execSub rd rs rt s
  | .addi rt rs imm => Sys2Proof.Machine.execAddi rt rs imm s
  | .andi rt rs imm => Sys2Proof.Machine.execAndi rt rs imm s
  | .ori rt rs imm => Sys2Proof.Machine.execOri rt rs imm s
  | .lw rt rs imm => Sys2Proof.Machine.execLw rt rs imm s
  | .sw rt rs imm => Sys2Proof.Machine.execSw rt rs imm s
  | .beq rs rt imm => Sys2Proof.Machine.execBeq rs rt imm s
  | .bne rs rt imm => Sys2Proof.Machine.execBne rs rt imm s
  | .j target => Sys2Proof.Machine.execJ target s
  | .jal target => Sys2Proof.Machine.execJal target s

end Sys2Proof.Machine
end

