-- ==== Sys2Proof/Machine/Step.lean ====
section
/-! DEFINITION. One step: one iteration of the fetch-execute loop (R96), and how the host places a word to be fetched. -/

namespace Sys2Proof.Machine

/-- One step of the core (R96).
A core that has stopped takes no step and keeps its state (R104, R106; log entry 4).
The loop's test comes before the fetch (R97): a core whose `pc` is past the end, or whose RunFlag is cleared, fetches
nothing, and its status is settled (no run reaches such a state with status RUNNING; log entry 6).
Otherwise the word at `pc` is fetched and decoded. A decoded instruction has its own effect and the loop finishes the
step; an UNSUPPORTED word is logged and the loop finishes the step (R101). -/
def step (s : State) : Host.Outcome State Fault Refusal :=
  if s.status = .running then
    if stopStatus s.runFlag s.pc = .running then
      match decode s.fetch (s.readReg Config.haltReg) with
      | .ok i => mapNext State.finishStep (exec i s)
      | .error _ => .next (s.logUnsupported s.fetch).finishStep
    else .next (s.setStatus (stopStatus s.runFlag s.pc))
  else .next s

/-- The state with the word `w` where the next step fetches: instruction memory at `pc` (for a `pc` inside it). The halt
word is an instruction only with x[2] = 10 (R60), so for that word the halt register is preset as well (R110); nothing
else changes (log entry 2). -/
def State.withFetchWord (s : State) (nbits w : Nat) : State :=
  if s.pc.toNat < Config.imemWords then
    if tableWord nbits w = Config.haltWord then
      (s.writeInstr s.pc.toNat (tableWord nbits w)).writeReg Config.haltReg Config.haltCode
    else s.writeInstr s.pc.toNat (tableWord nbits w)
  else s

end Sys2Proof.Machine
end

