-- ==== Sys2Proof/Machine/Port.lean ====
section
/-! DEFINITION. The core's interface to the host (R106 to R112, R127, R128; decision D3): the ports as transactions. -/

namespace Sys2Proof.Machine

/-! ## The host port (R106, R110) -/

/-- What `host_sel` selects (R106). -/
inductive HostTarget where
  /-- 0 = instruction memory, 1 = data memory. -/
  | memory (space : Space)
  /-- 2 = register file. -/
  | registers
  deriving DecidableEq, Repr

/-- The target of a `host_sel` value; 3 selects none (R106). -/
def hostTarget (sel : BitVec 2) : Option HostTarget :=
  if sel = 0 then some (.memory .instruction)
  else if sel = 1 then some (.memory .data)
  else if sel = 2 then some .registers
  else none

/-- The number of words a target has (R106). -/
def HostTarget.words : HostTarget → Nat
  | .memory space => space.words
  | .registers => Config.nregs

/-- The word a `host_sel`, `host_addr` pair names, if it names one (R106). -/
def hostWord (sel : BitVec 2) (addr : BitVec 12) : Option (HostTarget × Nat) :=
  match hostTarget sel with
  | some t => if addr.toNat < t.words then some (t, addr.toNat) else none
  | none => none

/-- Write word `i` of a space. -/
def State.writeSpace (s : State) (space : Space) (i : Nat) (v : Word) : State :=
  match space with
  | .instruction => s.writeInstr i v
  | .data => s.writeData i v

/-- Write one word of a target, for an index inside it. -/
def State.pokeHost (s : State) (t : HostTarget) (i : Nat) (v : Word) : State :=
  match t with
  | .memory space => s.writeSpace space i v
  | .registers => s.writeReg (Fin.ofNat Config.nregs i) v

/-- Read one word of a target, for an index inside it. -/
def State.peekHost (s : State) (t : HostTarget) (i : Nat) : Word :=
  match t with
  | .memory .instruction => s.readInstr i
  | .memory .data => s.readData i
  | .registers => s.readReg (Fin.ofNat Config.nregs i)

/-- No step has been taken since reset: the status is RUNNING and `pc` is 0. A step never leaves a core so, because it
adds 1 to a `pc` that cannot be 2^32 - 1 (R18, R98; log entry 18). -/
def State.beforeFirstStep (s : State) : Bool := s.status = .running ∧ s.pc = 0

/-- The host's window for writes: `run = 0`, after reset and before the first step (R49, R106, R108, R110). A stopped core
changes no state (R104, R126), and an edge does nothing to it (R106). -/
def hostMayWrite (run : Bool) (s : State) : Bool := !run && s.beforeFirstStep

/-- A host write: honoured only in the host's window and ignored outside it (R106, R108, R110, I17; log entry 8). A `sel`
and `addr` that name no word fault (log entry 9). -/
def hostWrite (run : Bool) (sel : BitVec 2) (addr : BitVec 12) (v : Word) (s : State) :
    Host.Outcome State Fault Refusal :=
  if hostMayWrite run s then
    match hostWord sel addr with
    | some (t, i) => .next (s.pokeHost t i v)
    | none => .fault (.hostPortNoWord sel addr)
  else .next s

/-- A host read, `host_rdata`: defined only while `run = 0` or after a stop, and only for a word that exists (R106, R109).
`none` where the spec defines no value (log entry 10). -/
def hostRead (run : Bool) (sel : BitVec 2) (addr : BitVec 12) (s : State) : Option Word :=
  if run = true ∧ s.status = .running then none
  else match hostWord sel addr with
    | some (t, i) => some (s.peekHost t i)
    | none => none

/-- The host's read of the event log, after a stop (R21, R109). -/
def hostReadLog (s : State) : Option (List UnsupportedEvent) :=
  if s.status = .running then none else some s.log

/-! ## The load (R108) -/

/-- Load lines from index `i` upward. A line is the number its text stands for, or `none` where the text is no
hexadecimal integer (the text itself is the loader's: R5). Lines are taken in order, and the first that cannot be loaded
refuses the whole load (log entry 12). -/
def loadLines (space : Space) : Nat → List (Option Nat) → State → Host.Outcome State Fault Refusal
  | _, [], s => .next s
  | i, line :: rest, s =>
    if space.words ≤ i then .refused (.capacityExceeded space)
    else match line with
      | none => .refused (.malformedInput i)
      | some v =>
        if v < 2 ^ Config.xlen then loadLines space (i + 1) rest (s.writeSpace space i (BitVec.ofNat Config.xlen v))
        else .refused (.malformedInput i)

/-- The host load transaction: words to indices 0 upward, in the host's window; outside it the load writes nothing (R108,
I17; log entry 8). -/
def hostLoad (run : Bool) (space : Space) (lines : List (Option Nat)) (s : State) : Host.Outcome State Fault Refusal :=
  if hostMayWrite run s then loadLines space 0 lines s else .next s

/-- Write a list of registers, in order. -/
def presetRegs : List (Reg × Word) → State → State
  | [], s => s
  | (r, v) :: rest, s => presetRegs rest (s.writeReg r v)

/-- The host's register preset, in its window; outside it nothing is written (R110; log entry 8). -/
def hostPreset (run : Bool) (presets : List (Reg × Word)) (s : State) : State :=
  if hostMayWrite run s then presetRegs presets s else s

/-- The boot sequence up to `run = 1`: reset, load instruction memory, load data memory, preset registers (R128). A
refused load gives no state to run (D13). -/
def boot (imemLines dmemLines : List (Option Nat)) (presets : List (Reg × Word)) : Host.Outcome State Fault Refusal :=
  match hostLoad false .instruction imemLines State.reset with
  | .next s => mapNext (hostPreset false presets) (hostLoad false .data dmemLines s)
  | .fault e => .fault e
  | .refused e => .refused e

/-! ## The clock edge and the outputs (R106, R111) -/

/-- The inputs sampled at one `clk` edge (R106). -/
structure Inputs where
  rst : Bool
  run : Bool
  hostSel : BitVec 2
  hostWe : Bool
  hostAddr : BitVec 12
  hostWdata : Word
  deriving DecidableEq, Repr

/-- One active `clk` edge (R106): `rst` resets; else `run = 1` takes one step, and a stopped core does nothing; else
`host_we` writes a word in the host's window and does nothing outside it. `rst` goes first (log entry 8). -/
def clkEdge (inp : Inputs) (s : State) : Host.Outcome State Fault Refusal :=
  if inp.rst then .next State.reset
  else if inp.run then step s
  else if inp.hostWe then hostWrite inp.run inp.hostSel inp.hostAddr inp.hostWdata s
  else .next s

/-- Whether the next step of `s` fetches a word (R97). -/
def fetches (s : State) : Bool := s.status = .running ∧ stopStatus s.runFlag s.pc = .running

/-- The `unsup_*` event of the step taken from `s`, if that step decodes UNSUPPORTED (R106, R111). -/
def unsupEvent (s : State) : Option UnsupportedEvent :=
  if fetches s then
    match decode s.fetch (s.readReg Config.haltReg) with
    | .ok _ => none
    | .error _ => some ⟨s.pc, s.fetch⟩
  else none

/-- The optional `SubTrace(x[rs], x[rt])` event of the step taken from `s`: emitted or omitted as the free value
`Config.emitsSubTrace` says, and only by a step that executes `sub` (R112; log entry 11). -/
def subTrace (s : State) : Option (Word × Word) :=
  if fetches s then
    match decode s.fetch (s.readReg Config.haltReg) with
    | .ok (.sub _ rs rt _) =>
      if Config.emitsSubTrace s.pc (s.readReg rs) (s.readReg rt) then some (s.readReg rs, s.readReg rt) else none
    | _ => none
  else none

/-- `fault_info`: (pc, EA, op) of a FAULT_OOB status; `none` otherwise, where the port is undefined (R106; log entries 10
and 13). -/
def faultInfo (s : State) : Option (Pc × Word × AccessOp) :=
  match s.status with
  | .faultOob pc addr op => some (pc, addr, op)
  | .running | .halted | .neverTerminated => none

/-- The outputs (R106). `pc_out`, `run_flag`, `status` and `fault_info` show the state after the last step at all times;
`unsup` and `trace` belong to the step taken at this edge, so they need `run = 1` and no reset (R111). -/
structure Outputs where
  pcOut : Pc
  runFlag : Bool
  status : BitVec 2
  faultInfo : Option (Pc × Word × AccessOp)
  hostRdata : Option Word
  unsup : Option UnsupportedEvent
  trace : Option (Word × Word)
  deriving DecidableEq, Repr

/-- The outputs of state `s` under the inputs `inp` (R106, R111, R112). -/
def outputs (inp : Inputs) (s : State) : Outputs where
  pcOut := s.pc
  runFlag := s.runFlag
  status := s.status.code
  faultInfo := faultInfo s
  hostRdata := hostRead inp.run inp.hostSel inp.hostAddr s
  unsup := if inp.run && !inp.rst then unsupEvent s else none
  trace := if inp.run && !inp.rst then subTrace s else none

end Sys2Proof.Machine
end

