-- ==== Sys2Proof/Safety.lean ====
section
/-! DEFINITION. The terms in which claims are stated: frames, what the next step runs, and the invariant of the core. -/

namespace Sys2Proof.Machine

/-! ## Frames: what a next state `t` keeps of `s` -/

/-- Every general register is unchanged. -/
def SameRegs (s t : State) : Prop := ∀ q, t.readReg q = s.readReg q

/-- Every general register but `r` is unchanged. -/
def SameRegsExcept (r : Reg) (s t : State) : Prop := ∀ q, q ≠ r → t.readReg q = s.readReg q

/-- Every word of instruction memory reads as before. -/
def SameInstr (s t : State) : Prop := ∀ i, t.readInstr i = s.readInstr i

/-- Every word of data memory reads as before. -/
def SameData (s t : State) : Prop := ∀ i, t.readData i = s.readData i

/-- Every word of data memory but word `a` reads as before. -/
def SameDataExcept (a : Nat) (s t : State) : Prop := ∀ i, i ≠ a → t.readData i = s.readData i

/-- RunFlag, the stop status and the event log are unchanged. -/
def SameControl (s t : State) : Prop := t.runFlag = s.runFlag ∧ t.status = s.status ∧ t.log = s.log

/-- `t` differs from `s` at most in register `r` (R71, R81). -/
def OnlyReg (r : Reg) (s t : State) : Prop :=
  SameRegsExcept r s t ∧ t.pc = s.pc ∧ SameInstr s t ∧ SameData s t ∧ SameControl s t

/-- `t` differs from `s` at most in data word `a` (R87). -/
def OnlyData (a : Nat) (s t : State) : Prop :=
  SameRegs s t ∧ t.pc = s.pc ∧ SameInstr s t ∧ SameDataExcept a s t ∧ SameControl s t

/-- `t` differs from `s` at most in `pc`. -/
def OnlyPc (s t : State) : Prop := SameRegs s t ∧ SameInstr s t ∧ SameData s t ∧ SameControl s t

/-! ## The registers an instruction reads and writes (R16) -/

/-- The register an instruction writes (R16): `rd` of an R-type, `rt` of an I-type ALU operation and of `lw`, register 31
of `jal`, and none of the others. -/
def destination : Instr → Option Reg
  | .add rd _ _ _ | .and rd _ _ _ | .nor rd _ _ _ | .or rd _ _ _ | .slt rd _ _ _ | .sub rd _ _ _ => some rd
  | .sll rd _ _ _ | .sra rd _ _ _ | .srl rd _ _ _ => some rd
  | .addi rt _ _ | .andi rt _ _ | .ori rt _ _ => some rt
  | .lw rt _ _ => some rt
  | .jal _ => some Config.linkReg
  | .halt | .nop | .sw _ _ _ | .beq _ _ _ | .bne _ _ _ | .j _ => none

/-- The registers an instruction's effect reads (R16). `halt` reads register 2 in its decoding only (R60). -/
def sources : Instr → List Reg
  | .add _ rs rt _ | .and _ rs rt _ | .nor _ rs rt _ | .or _ rs rt _ | .slt _ rs rt _ | .sub _ rs rt _ => [rs, rt]
  | .sll _ rt _ _ | .sra _ rt _ _ | .srl _ rt _ _ => [rt]
  | .addi _ rs _ | .andi _ rs _ | .ori _ rs _ => [rs]
  | .lw _ rs _ => [rs]
  | .sw rt rs _ => [rs, rt]
  | .beq rs rt _ | .bne rs rt _ => [rs, rt]
  | .halt | .nop | .j _ | .jal _ => []

/-! ## What the next step does -/

/-- The loop takes a step from `s` (R97). -/
structure Steps (s : State) : Prop where
  running : s.status = .running
  flag : s.runFlag = true
  pc_lt : s.pc.toNat < Config.imemWords

/-- The next step of `s` fetches a word that decodes to `i` (R96). -/
structure RunsInstr (s : State) (i : Instr) : Prop extends Steps s where
  decoded : decode (s.readInstr s.pc.toNat) (s.readReg Config.haltReg) = .ok i

/-- The next step of `s` fetches a word that decodes to UNSUPPORTED (R101). -/
structure RunsUnsupported (s : State) : Prop extends Steps s where
  decoded : ∃ e, decode (s.readInstr s.pc.toNat) (s.readReg Config.haltReg) = .error e

/-- The core has stopped (R104). -/
def Stopped (s : State) : Prop := s.status ≠ .running

/-- A normal stop that executed no unsupported word: what a claim about a program should ask for (R105). -/
def CleanHalt (s : State) : Prop := s.status = .halted ∧ s.log = []

/-! ## The invariant -/

/-- The instruction that makes an access of kind `op` (R102). -/
def AccessOp.instr : AccessOp → Reg → Reg → Imm → Instr
  | .lw => .lw
  | .sw => .sw

/-- The status agrees with RunFlag and `pc` (R20, R97, R100), and FAULT_OOB names the instruction at `pc` and the
address outside data memory that it computed (R102, R116). -/
def StatusAgrees (s : State) : Prop :=
  match s.status with
  | .running => s.runFlag = true ∧ s.pc.toNat < Config.imemWords
  | .halted => s.runFlag = false
  | .neverTerminated => s.runFlag = true ∧ Config.imemWords ≤ s.pc.toNat
  | .faultOob pc addr op =>
    s.runFlag = true ∧ pc = s.pc ∧ s.pc.toNat < Config.imemWords ∧ Config.dmemWords ≤ addr.toNat ∧
      ∃ rt rs imm, decode (s.readInstr s.pc.toNat) (s.readReg Config.haltReg) = .ok (op.instr rt rs imm) ∧
        effectiveAddress rs imm s = addr

/-- A record of the event log is the index of a word of instruction memory and that word, and the word is one that can
decode to UNSUPPORTED (R21, R101). -/
def RecordAgrees (s : State) (e : UnsupportedEvent) : Prop :=
  e.pc.toNat < Config.imemWords ∧ s.readInstr e.pc.toNat = e.word ∧ ∃ v u, decode e.word v = .error u

/-- The invariant of the core at every step boundary (R20, R21, R22, R23, R30). -/
structure Inv (s : State) : Prop where
  /-- Instruction memory is canonical and inside its 4096 words (R22). -/
  imem_wf : Memory.wf Config.imemWords s.imem
  /-- Data memory is canonical and inside its 1024 words (R23). -/
  dmem_wf : Memory.wf Config.dmemWords s.dmem
  /-- `pc` is at most 2^26, so it never wraps (R18, R30). -/
  pc_le : s.pc.toNat ≤ 2 ^ 26
  status : StatusAgrees s
  log : ∀ e ∈ s.log, RecordAgrees s e

end Sys2Proof.Machine
end

