-- ==== Sys2Proof/Certificates/Slice0/Obligations.lean ====
section
/-! DEFINITION. The statements for the provers. Each docstring cites the rules of spec/ it formalises. -/

open Sys2Proof Sys2Proof.Machine

/-! ## Shapes shared by several statements -/

namespace Sys2Proof.Claims

/-- Bits `lo + n - 1` down to `lo` of a word, as a number (R7). -/
def bits (w : Word) (lo n : Nat) : Nat := w.toNat / 2 ^ lo % 2 ^ n

/-- The bits of an R-type word (R51, R52). -/
def RTypeBits (w : Word) (funct : Nat) (rd rs rt : Reg) (shamt : Shamt) : Prop :=
  bits w 26 6 = 0 ∧ bits w 0 6 = funct ∧ rs.val = bits w 21 5 ∧ rt.val = bits w 16 5 ∧ rd.val = bits w 11 5 ∧
    shamt.val = bits w 6 5

/-- The bits of an I-type word (R51, R52). -/
def ITypeBits (w : Word) (opcode : Nat) (rs rt : Reg) (imm : Imm) : Prop :=
  bits w 26 6 = opcode ∧ rs.val = bits w 21 5 ∧ rt.val = bits w 16 5 ∧ imm.toNat = bits w 0 16

/-- The bits of a J-type word (R51, R52). -/
def JTypeBits (w : Word) (opcode : Nat) (target : Target) : Prop :=
  bits w 26 6 = opcode ∧ target.toNat = bits w 0 26

/-- The word `w` spells the instruction in the maps of R58 to R61, when the halt register holds `v`. -/
def Spells (w v : Word) : Instr → Prop
  | .halt => w = 0x0000000C ∧ v = 10
  | .nop => w = 0
  | .add rd rs rt shamt => RTypeBits w 32 rd rs rt shamt
  | .and rd rs rt shamt => RTypeBits w 36 rd rs rt shamt
  | .nor rd rs rt shamt => RTypeBits w 39 rd rs rt shamt
  | .or rd rs rt shamt => RTypeBits w 37 rd rs rt shamt
  | .slt rd rs rt shamt => RTypeBits w 42 rd rs rt shamt
  | .sll rd rt shamt rs => w ≠ 0 ∧ RTypeBits w 0 rd rs rt shamt
  | .sra rd rt shamt rs => RTypeBits w 3 rd rs rt shamt
  | .srl rd rt shamt rs => RTypeBits w 2 rd rs rt shamt
  | .sub rd rs rt shamt => RTypeBits w 34 rd rs rt shamt
  | .addi rt rs imm => ITypeBits w 8 rs rt imm
  | .andi rt rs imm => ITypeBits w 12 rs rt imm
  | .ori rt rs imm => ITypeBits w 13 rs rt imm
  | .lw rt rs imm => ITypeBits w 35 rs rt imm
  | .sw rt rs imm => ITypeBits w 43 rs rt imm
  | .beq rs rt imm => ITypeBits w 4 rs rt imm
  | .bne rs rt imm => ITypeBits w 5 rs rt imm
  | .j target => JTypeBits w 2 target
  | .jal target => JTypeBits w 3 target

/-- The number of the word of an R-type instruction (R68). -/
def rNumber (rs rt rd : Reg) (shamt : Shamt) (funct : Nat) : Nat :=
  rs.val * 2 ^ 21 + rt.val * 2 ^ 16 + rd.val * 2 ^ 11 + shamt.val * 2 ^ 6 + funct

/-- The number of the word of an I-type instruction (R68). -/
def iNumber (opcode : Nat) (rs rt : Reg) (imm : Imm) : Nat :=
  opcode * 2 ^ 26 + rs.val * 2 ^ 21 + rt.val * 2 ^ 16 + imm.toNat

/-- The number of an instruction's word, from the maps of R58 to R61 and the layouts of R68. -/
def wordNumber : Instr → Nat
  | .halt => 12
  | .nop => 0
  | .add rd rs rt shamt => rNumber rs rt rd shamt 32
  | .and rd rs rt shamt => rNumber rs rt rd shamt 36
  | .nor rd rs rt shamt => rNumber rs rt rd shamt 39
  | .or rd rs rt shamt => rNumber rs rt rd shamt 37
  | .slt rd rs rt shamt => rNumber rs rt rd shamt 42
  | .sll rd rt shamt rs => rNumber rs rt rd shamt 0
  | .sra rd rt shamt rs => rNumber rs rt rd shamt 3
  | .srl rd rt shamt rs => rNumber rs rt rd shamt 2
  | .sub rd rs rt shamt => rNumber rs rt rd shamt 34
  | .addi rt rs imm => iNumber 8 rs rt imm
  | .andi rt rs imm => iNumber 12 rs rt imm
  | .ori rt rs imm => iNumber 13 rs rt imm
  | .lw rt rs imm => iNumber 35 rs rt imm
  | .sw rt rs imm => iNumber 43 rs rt imm
  | .beq rs rt imm => iNumber 4 rs rt imm
  | .bne rs rt imm => iNumber 5 rs rt imm
  | .j target => 2 * 2 ^ 26 + target.toNat
  | .jal target => 3 * 2 ^ 26 + target.toNat

/-- Every word that matches the R-type row `m` is the row's instruction, with the word's fields. -/
def RTypeRow (mk : Reg → Reg → Reg → Shamt → Instr) (m : Word) : Prop :=
  ∀ w v : Word, w &&& 0xFC00003F = m →
    decode w v = .ok (mk (rdField w) (rsField w) (rtField w) (shamtField w))

/-- Every word but 0 that matches the shift row `m` is the row's instruction, with the word's fields. -/
def ShiftRow (mk : Reg → Reg → Shamt → Reg → Instr) (m : Word) : Prop :=
  ∀ w v : Word, w &&& 0xFC00003F = m → w ≠ 0 →
    decode w v = .ok (mk (rdField w) (rtField w) (shamtField w) (rsField w))

/-- Every word that matches the I-type row `m` is `mk rs rt imm` of the word's fields. -/
def ITypeRow (mk : Reg → Reg → Imm → Instr) (m : Word) : Prop :=
  ∀ w v : Word, w &&& 0xFC000000 = m → decode w v = .ok (mk (rsField w) (rtField w) (immField w))

/-- Every word that matches the J-type row `m` is the row's instruction, with the word's target. -/
def JTypeRow (mk : Target → Instr) (m : Word) : Prop :=
  ∀ w v : Word, w &&& 0xFC000000 = m → decode w v = .ok (mk (targetField w))

/-- From every state the R-type instruction completes, `x[rd]` holds `value x[rs] x[rt]` as a number, and nothing else
changes, whatever the ignored `shamt` (R56, R71). -/
def RTypeResult (mk : Reg → Reg → Reg → Shamt → Instr) (value : Nat → Nat → Nat) : Prop :=
  ∀ rd rs rt shamt s, ∃ t, exec (mk rd rs rt shamt) s = .next t ∧
    (t.readReg rd).toNat = value (s.readReg rs).toNat (s.readReg rt).toNat ∧ OnlyReg rd s t

/-- From every state the shift completes, `x[rd]` holds `value x[rt] shamt` as a number, and nothing else changes, whatever
the ignored `rs` (R56, R71). -/
def ShiftResult (mk : Reg → Reg → Shamt → Reg → Instr) (value : Nat → Nat → Nat) : Prop :=
  ∀ rd rt shamt rs s, ∃ t, exec (mk rd rt shamt rs) s = .next t ∧
    (t.readReg rd).toNat = value (s.readReg rt).toNat shamt.val ∧ OnlyReg rd s t

/-- From every state the I-type operation completes, `x[rt]` holds `value x[rs] imm` as a number, and nothing else changes
(R81). -/
def ImmResult (mk : Reg → Reg → Imm → Instr) (value : Nat → Nat → Nat) : Prop :=
  ∀ rt rs imm s, ∃ t, exec (mk rt rs imm) s = .next t ∧
    (t.readReg rt).toNat = value (s.readReg rs).toNat imm.toNat ∧ OnlyReg rt s t

/-- From every state the branch completes: taken, `pc` is `pc + (imm << 2)` (mod 2^32) and nothing else changes; not taken,
nothing changes (R89, R90). -/
def BranchResult (mk : Reg → Reg → Imm → Instr) (taken : Word → Word → Prop) : Prop :=
  ∀ rs rt imm s,
    (taken (s.readReg rs) (s.readReg rt) → ∃ t, exec (mk rs rt imm) s = .next t ∧
      t.pc.toNat = (s.pc.toNat + 4 * imm.toNat) % 2 ^ 32 ∧ OnlyPc s t) ∧
    (¬taken (s.readReg rs) (s.readReg rt) → exec (mk rs rt imm) s = .next s)

/-- The status of a core that has not halted and whose `pc` is `n` (R100). -/
def statusAt (n : Nat) : StopStatus := if 4096 ≤ n then .neverTerminated else .running

/-- The next step of `s` completes with `pc = n` and the status of that `pc`. -/
def Lands (s : State) (n : Nat) : Prop := ∃ t, step s = .next t ∧ t.pc.toNat = n ∧ t.status = statusAt n

/-- `t` and `u` agree in everything but instruction memory. -/
def AgreeButInstr (t u : State) : Prop := SameRegs t u ∧ u.pc = t.pc ∧ SameData t u ∧ SameControl t u

/-- The load lines of a list of words (R108). -/
def lines (ws : List Word) : List (Option Nat) := ws.map fun w => some w.toNat

end Sys2Proof.Claims

open Sys2Proof.Claims

/-! ## Encoding -/

/-- Decoding the word of a well-formed instruction gives it back, with every operand at every value (R68). The halt
word decodes as `halt` only with 10 in the halt register (R60). That the fields an instruction ignores come back too is
the model's choice (log entry 5): R68 gives back only the used ones. -/
def Obligations.DecodeAfterEncodeIsIdentity : Prop :=
  ∀ (i : Instr) (v : Word), i.wf = true → (i = .halt → v = Config.haltCode) → decode (encode i) v = .ok i

/-- Encoding what was decoded gives the word back, and what the decoder answers is well formed. That no bit is dropped,
the ignored fields included, and so that no two words are one instruction, is the model's choice (log entry 5): the
spec gives back only the used fields (spec/30_encoding.md). -/
def Obligations.EncodeAfterDecodeIsIdentity : Prop :=
  ∀ (w v : Word) (i : Instr), decode w v = .ok i → i.wf = true ∧ encode i = w

/-- The word of an instruction is the sum of its shifted fields (R68, with the opcode and funct values of R58 to R61). -/
def Obligations.EncodedWordIsTheSumOfItsFields : Prop :=
  ∀ i : Instr, (encode i).toNat = wordNumber i

/-- A word decodes to an instruction exactly when the opcode and funct values of R58 and R59 are its bits, every operand is
the number in the operand's bits (R51), and the halt and NOP rows go first (R57, R60, R61). -/
def Obligations.DecodeReadsExactlyTheBitsOfTheWord : Prop :=
  ∀ (w v : Word) (i : Instr), decode w v = .ok i ↔ Spells w v i

/-- A word that is neither NOP nor a firing halt is UNSUPPORTED exactly when its opcode, or for opcode 0 its funct, is in
neither map (R57, R58, R59, R62). -/
def Obligations.UnsupportedExactlyOutsideTheMaps : Prop :=
  ∀ w v : Word, w ≠ 0 → ¬(w = 0x0000000C ∧ v = 10) →
    ((∃ e, decode w v = .error e) ↔
      if bits w 26 6 = 0 then bits w 0 6 ∉ [0, 2, 3, 32, 34, 36, 37, 39, 42]
      else bits w 26 6 ∉ [2, 3, 4, 5, 8, 12, 13, 35, 43])

/-- R60: halt is the whole word 0x0000000C with x[2] = 10; otherwise that word, like any other word of opcode 0 and funct
12, is unsupported by its funct; and no other word's decoding reads the register. -/
def Obligations.HaltWordNeedsTenInRegisterTwo : Prop :=
  (∀ w v : Word, decode w v = .ok .halt ↔ w = 0x0000000C ∧ v = 10) ∧
  (∀ w v : Word, bits w 26 6 = 0 → bits w 0 6 = 12 → ¬(w = 0x0000000C ∧ v = 10) → decode w v = .error (.funct 12)) ∧
  (∀ w v u : Word, w ≠ 0x0000000C → decode w v = decode w u)

/-- No word is `slti`: opcode 10 is UNSUPPORTED, and so is opcode 0 with funct 10 (R64, R83). Omitting `slti` is the
spec's own decision D8 (log entry 15). -/
def Obligations.OpcodeTenAndFunctTenAreUnsupported : Prop :=
  ∀ w v : Word, bits w 26 6 = 10 ∨ (bits w 26 6 = 0 ∧ bits w 0 6 = 10) → ∃ e, decode w v = .error e

/-- A decoded word matches the mask and match words of its instruction's row of the opcode table. -/
def Obligations.DecodedWordMatchesItsTableRow : Prop :=
  ∀ (w v : Word) (i : Instr), decode w v = .ok i → w &&& i.tableMask = i.tableMatch

/-- Words written out from the spec's encodings decode to the instructions they stand for (spec/95_test_vectors.md). -/
def Obligations.SpecWordsDecodeToTheirInstructions : Prop :=
  decode 0x01095020 0 = .ok (.add 10 8 9 0) ∧ decode 0x010957E0 0 = .ok (.add 10 8 9 31) ∧
  decode 0x00095103 0 = .ok (.sra 10 9 4 0) ∧ decode 0x3208FFFF 0 = .ok (.andi 8 16 0xFFFF) ∧
  decode 0x8D2A0017 0 = .ok (.lw 10 9 23) ∧ decode 0xAD280005 0 = .ok (.sw 8 9 5) ∧
  decode 0x15090002 0 = .ok (.bne 8 9 2) ∧ decode 0x0FFFFFFF 0 = .ok (.jal 0x3FFFFFF) ∧
  decode 0x00000000 0 = .ok .nop ∧ decode 0x0000000C 10 = .ok .halt ∧ decode 0x0000000C 9 = .error (.funct 12) ∧
  decode 0x2908000A 0 = .error (.opcode 10)

/-! ## State, reset and the invariant -/

/-- R127, R29: the state after reset, and a reset edge gives it from any state, running or stopped. RunFlag, the
status, the log and a reset at any time are the spec's own decisions D11, D15 and D24 (log entry 15). That `rst` goes
first when `run` or `host_we` is asserted at the same edge is the model's choice (log entry 8). -/
def Obligations.ResetIsTheConstructionState : Prop :=
  ∀ (inp : Inputs) (s : State), inp.rst = true → ∃ t, clkEdge inp s = .next t ∧ t = State.reset ∧
    (∀ r, t.readReg r = 0) ∧ t.pc = 0 ∧ (∀ i, t.readInstr i = 0) ∧ (∀ i, t.readData i = 0) ∧
    t.runFlag = true ∧ t.status = .running ∧ t.log = []

/-- The state after reset meets the invariant. -/
def Obligations.ResetMeetsTheInvariant : Prop := Inv State.reset

/-- Every step keeps the invariant: canonical memories, `pc` at most 2^26, the status agreeing with RunFlag, `pc` and
the instruction that faulted, and an event log of unsupported words of instruction memory (R18, R20, R21, R30, R97,
R102). The canonical form is log entry 1; the width of `pc`, the status and the stop on an out-of-bounds access are the
spec's own D4, D5 and D24 (log entries 14 and 15). -/
def Obligations.StepKeepsTheInvariant : Prop :=
  ∀ s t : State, Inv s → step s = .next t → Inv t

/-- Every state that any loaded program reaches, from any register preset, meets the invariant (R128, R30). It rests on
what `StepKeepsTheInvariant` rests on, and on the register preset, the spec's own D9 (log entry 15). -/
def Obligations.EveryReachableStateMeetsTheInvariant : Prop :=
  ∀ (imemLines dmemLines : List (Option Nat)) (presets : List (Reg × Word)) (k : Nat) (s t : State),
    boot imemLines dmemLines presets = .next s → core.run k s = .next t → Inv t

/-- Memories in canonical form that read alike are equal, so equality of states is equality of what can be read. -/
def Obligations.CanonicalMemoriesThatReadAlikeAreEqual : Prop :=
  ∀ (size : Nat) (a b : Memory), Memory.wf size a → Memory.wf size b →
    (∀ i, i < size → Memory.read a i = Memory.read b i) → a = b

/-! ## Results, completion and frames of the instructions -/

/-- R72, R80: `add` and `sub` reduce the exact sum and difference mod 2^32. -/
def Obligations.AddAndSubWrapModulo2Pow32 : Prop :=
  RTypeRow .add 0x00000020 ∧ RTypeResult .add (fun a b => (a + b) % 2 ^ 32) ∧
  RTypeRow .sub 0x00000022 ∧ RTypeResult .sub (fun a b => (((a : Int) - b) % 2 ^ 32).toNat)

/-- R73, R74, R75: the bitwise operations; `nor` is (2^32 - 1) minus the OR. -/
def Obligations.AndOrNorAreBitwise : Prop :=
  RTypeRow .and 0x00000024 ∧ RTypeResult .and (fun a b => a &&& b) ∧
  RTypeRow .or 0x00000025 ∧ RTypeResult .or (fun a b => a ||| b) ∧
  RTypeRow .nor 0x00000027 ∧ RTypeResult .nor (fun a b => (2 ^ 32 - 1) - (a ||| b))

/-- R76: `slt` compares unsigned values, which is the spec's own inference (D26; log entry 15). -/
def Obligations.SltComparesUnsignedValues : Prop :=
  RTypeRow .slt 0x0000002A ∧ RTypeResult .slt (fun a b => if a < b then 1 else 0)

/-- R77, R78, R79: the shifts, by 0 to 31; `sra` fills with zeros like `srl`. -/
def Obligations.ShiftsMultiplyAndDivideByPowersOfTwo : Prop :=
  ShiftRow .sll 0x00000000 ∧ ShiftResult .sll (fun b n => b * 2 ^ n % 2 ^ 32) ∧
  ShiftRow .sra 0x00000003 ∧ ShiftResult .sra (fun b n => b / 2 ^ n) ∧
  ShiftRow .srl 0x00000002 ∧ ShiftResult .srl (fun b n => b / 2 ^ n)

/-- R82: `addi` adds the zero-extended immediate mod 2^32. -/
def Obligations.AddiAddsTheZeroExtendedImmediate : Prop :=
  ITypeRow (fun rs rt imm => .addi rt rs imm) 0x20000000 ∧ ImmResult .addi (fun a n => (a + n) % 2 ^ 32)

/-- R84, R85: `andi` and `ori` with the zero-extended immediate. -/
def Obligations.AndiAndOriUseTheZeroExtendedImmediate : Prop :=
  ITypeRow (fun rs rt imm => .andi rt rs imm) 0x30000000 ∧ ImmResult .andi (fun a n => a &&& n) ∧
  ITypeRow (fun rs rt imm => .ori rt rs imm) 0x34000000 ∧ ImmResult .ori (fun a n => a ||| n)

/-- R86: `lw` loads the data word at EA, reading the base before the write; outside data memory the core gets FAULT_OOB
and nothing else changes, `pc` included: the stop is the spec's own decision D5 (log entry 15). -/
def Obligations.LwLoadsTheWordAtItsAddressOrStops : Prop :=
  ITypeRow (fun rs rt imm => .lw rt rs imm) 0x8C000000 ∧
  ∀ (rt rs : Reg) (imm : Imm) (s : State),
    (effectiveAddress rs imm s).toNat = ((s.readReg rs).toNat + imm.toNat) % 2 ^ 32 ∧
    ((effectiveAddress rs imm s).toNat < 1024 → ∃ t, exec (.lw rt rs imm) s = .next t ∧
      t.readReg rt = s.readData (effectiveAddress rs imm s).toNat ∧ OnlyReg rt s t) ∧
    (1024 ≤ (effectiveAddress rs imm s).toNat →
      exec (.lw rt rs imm) s = .next { s with status := .faultOob s.pc (effectiveAddress rs imm s) .lw } ∧
      (RunsInstr s (.lw rt rs imm) →
        step s = .next { s with status := .faultOob s.pc (effectiveAddress rs imm s) .lw }))

/-- R87: `sw` stores `x[rt]` to the data word at EA and to no other; outside data memory the core gets FAULT_OOB and
nothing else changes, `pc` included: the stop is the spec's own decision D5 (log entry 15). Data memory in canonical
form is an invariant (`StepKeepsTheInvariant`). -/
def Obligations.SwStoresToTheWordAtItsAddressOrStops : Prop :=
  ITypeRow (fun rs rt imm => .sw rt rs imm) 0xAC000000 ∧
  ∀ (rt rs : Reg) (imm : Imm) (s : State), Memory.wf Config.dmemWords s.dmem →
    (effectiveAddress rs imm s).toNat = ((s.readReg rs).toNat + imm.toNat) % 2 ^ 32 ∧
    ((effectiveAddress rs imm s).toNat < 1024 → ∃ t, exec (.sw rt rs imm) s = .next t ∧
      t.readData (effectiveAddress rs imm s).toNat = s.readReg rt ∧
      OnlyData (effectiveAddress rs imm s).toNat s t) ∧
    (1024 ≤ (effectiveAddress rs imm s).toNat →
      exec (.sw rt rs imm) s = .next { s with status := .faultOob s.pc (effectiveAddress rs imm s) .sw } ∧
      (RunsInstr s (.sw rt rs imm) →
        step s = .next { s with status := .faultOob s.pc (effectiveAddress rs imm s) .sw }))

/-- R89, R90: `beq` and `bne` add the zero-extended immediate, shifted left by 2, to `pc` when taken, and write nothing
else; the loop then adds 1, so a taken branch lands at `pc + 4*imm + 1` and one not taken at `pc + 1` (R88). The
reduction mod 2^32 of the nominal target, for a `pc` that no step fetches from, is the model's (log entry 14, D4). -/
def Obligations.BeqAndBneAddTheShiftedImmediateWhenTaken : Prop :=
  ITypeRow .beq 0x10000000 ∧ BranchResult .beq (fun a b => a.toNat = b.toNat) ∧
  (∀ s rs rt imm, RunsInstr s (.beq rs rt imm) →
    Lands s (if s.readReg rs = s.readReg rt then s.pc.toNat + 4 * imm.toNat + 1 else s.pc.toNat + 1)) ∧
  ITypeRow .bne 0x14000000 ∧ BranchResult .bne (fun a b => a.toNat ≠ b.toNat) ∧
  (∀ s rs rt imm, RunsInstr s (.bne rs rt imm) →
    Lands s (if s.readReg rs ≠ s.readReg rt then s.pc.toNat + 4 * imm.toNat + 1 else s.pc.toNat + 1))

/-- R91: `j` sets `pc` to the target field, not combined with the old `pc`; the loop then adds 1, so it lands at
`target + 1` (R88). -/
def Obligations.JSetsPcToTheTargetAndLandsOnePast : Prop :=
  JTypeRow .j 0x08000000 ∧
  (∀ (target : Target) (s : State), ∃ t, exec (.j target) s = .next t ∧ t.pc.toNat = target.toNat ∧ OnlyPc s t) ∧
  (∀ s target, RunsInstr s (.j target) → Lands s (target.toNat + 1))

/-- R92: `jal` writes `pc + 4`, of its own `pc`, to register 31, and sets `pc` to the target field; the loop then adds
1, so it lands at `target + 1`, with the link written even when that is past the end. The reduction mod 2^32 of the
link, for a `pc` that no step fetches from, is the model's (log entry 14, D4); where a step runs the `jal` the link
needs no reduction. -/
def Obligations.JalLinksPcPlusFourAndLandsOnePast : Prop :=
  JTypeRow .jal 0x0C000000 ∧
  (∀ (target : Target) (s : State), ∃ t, exec (.jal target) s = .next t ∧ t.pc.toNat = target.toNat ∧
    (t.readReg 31).toNat = (s.pc.toNat + 4) % 2 ^ 32 ∧
    SameRegsExcept 31 s t ∧ SameInstr s t ∧ SameData s t ∧ SameControl s t) ∧
  (∀ s target, RunsInstr s (.jal target) → Lands s (target.toNat + 1) ∧
    ∀ t, step s = .next t → (t.readReg 31).toNat = s.pc.toNat + 4)

/-- R69, R99: `halt` clears RunFlag and nothing else; the step that runs it adds 1 to `pc` and sets HALTED, from any
other state and at any `pc`, index 4095 included, and the core takes no step afterwards. With any other value in
register 2 the same word is unsupported. The final `pc` and HALTED at index 4095 are the spec's own decisions D6 and D7
(log entry 15). -/
def Obligations.HaltClearsRunFlagAndStops : Prop :=
  (∀ s : State, ∃ t, exec .halt s = .next t ∧ t.runFlag = false ∧ t.status = s.status ∧ t.log = s.log ∧ t.pc = s.pc ∧
    SameRegs s t ∧ SameInstr s t ∧ SameData s t) ∧
  (∀ s : State, Steps s → s.readInstr s.pc.toNat = 0x0000000C → s.readReg 2 = 10 →
    ∃ t, step s = .next t ∧ t.runFlag = false ∧ t.status = .halted ∧ t.pc.toNat = s.pc.toNat + 1 ∧ t.log = s.log ∧
      SameRegs s t ∧ SameInstr s t ∧ SameData s t ∧ step t = .next t) ∧
  (∀ s : State, Steps s → s.readInstr s.pc.toNat = 0x0000000C → s.readReg 2 ≠ 10 → RunsUnsupported s)

/-- R70, R61: `nop` has no effect, its word is 0, and the step that runs it only adds 1 to `pc`; reading the word as
`sll $0, $0, 0` would have the same effect. A program that runs past its last loaded word executes NOPs to the end of
instruction memory and stops there with NEVER_TERMINATED. -/
def Obligations.NopOnlyAdvancesPc : Prop :=
  (∀ s : State, exec .nop s = .next s ∧ ∀ rs, exec (.sll 0 0 0 rs) s = .next s) ∧
  (∀ s : State, Steps s → s.readInstr s.pc.toNat = 0 →
    step s = .next { s with pc := s.pc + 1, status := statusAt (s.pc.toNat + 1) }) ∧
  (∀ s : State, Steps s → (∀ i, s.pc.toNat ≤ i → i < 4096 → s.readInstr i = 0) →
    core.run (4096 - s.pc.toNat) s = .next { s with pc := 4096, status := .neverTerminated })

/-- R16: an instruction's effect depends on no register but its sources. From two states that differ only in a register
it does not read, it makes states that differ at most in that register, and not even there if it wrote that register
(an out-of-bounds `lw` writes none). That sources are read before the write is the spec's own inference (R16; log entry
15). -/
def Obligations.InstructionReadsOnlyItsSources : Prop :=
  ∀ (i : Instr) (s : State) (q : Reg) (v : Word), q ∉ sources i →
    ∃ t u, exec i s = .next t ∧ exec i (s.writeReg q v) = .next u ∧
      u.pc = t.pc ∧ SameInstr t u ∧ SameData t u ∧ SameControl t u ∧
      ∀ p, p ≠ q ∨ (destination i = some q ∧ ∀ pc ea op, t.status ≠ .faultOob pc ea op) → u.readReg p = t.readReg p

/-! ## The step -/

/-- R96, R98 to R100: when the word at `pc` decodes to `i`, the step is `exec i` and then the loop: 1 is added to `pc`,
and the status is HALTED if RunFlag is clear, NEVER_TERMINATED if `pc` is past the end, and RUNNING otherwise; a step
that raised FAULT_OOB stays as `exec` left it. The increment after halt and the stop on an out-of-bounds access are the
spec's own D5 and D6 (log entry 15). -/
def Obligations.StepRunsTheDecodedInstruction : Prop :=
  ∀ (s t : State) (i : Instr), RunsInstr s i → exec i s = .next t →
    (t.status = .running → step s = .next { t with
      pc := t.pc + 1
      status := if t.runFlag = false then .halted else statusAt (t.pc + 1).toNat }) ∧
    (t.status ≠ .running → step s = .next t)

/-- R101, R62: a step whose word is UNSUPPORTED appends (pc, w) to the log, adds 1 to `pc`, and changes nothing else. -/
def Obligations.UnsupportedWordIsLoggedAndSkipped : Prop :=
  ∀ s : State, RunsUnsupported s → ∃ t, step s = .next t ∧
    t.log = s.log ++ [⟨s.pc, s.readInstr s.pc.toNat⟩] ∧ t.pc.toNat = s.pc.toNat + 1 ∧
    t.status = statusAt (s.pc.toNat + 1) ∧ t.runFlag = true ∧ SameRegs s t ∧ SameInstr s t ∧ SameData s t

/-- R102: a `lw` or `sw` outside data memory ends the step at once with FAULT_OOB(pc, EA, op), and nothing else
changes: `pc` still names the instruction. The spec chose this outcome (D5; log entry 15). -/
def Obligations.OutOfBoundsAccessStopsPrecisely : Prop :=
  ∀ (s : State) (op : AccessOp) (rt rs : Reg) (imm : Imm), RunsInstr s (op.instr rt rs imm) →
    1024 ≤ (effectiveAddress rs imm s).toNat →
    step s = .next { s with status := .faultOob s.pc (effectiveAddress rs imm s) op }

/-- R98: every step that is no transfer, no halt and no out-of-bounds access lands on the next word. The increment is
the source's "regardless" (R98; D6). -/
def Obligations.OtherStepsAdvancePcByOne : Prop :=
  ∀ (s : State) (i : Instr), RunsInstr s i →
    (match i with
      | .halt | .beq _ _ _ | .bne _ _ _ | .j _ | .jal _ => False
      | .lw _ rs imm | .sw _ rs imm => (effectiveAddress rs imm s).toNat < 1024
      | _ => True) →
    Lands s (s.pc.toNat + 1)

/-- R99, R100, R102, R114: a step stops the core for exactly these reasons, one status each. The statuses, and which
one a step gets, are the spec's own D5, D7 and D24 (log entry 15). -/
def Obligations.StepStopsForExactlyTheseReasons : Prop :=
  ∀ s t : State, Steps s → step s = .next t →
    (t.status = .halted ↔ RunsInstr s .halt) ∧
    (t.status = .neverTerminated ↔ t.runFlag = true ∧ 4096 ≤ t.pc.toNat) ∧
    (∀ pc ea op, t.status = .faultOob pc ea op ↔
      pc = s.pc ∧ 1024 ≤ ea.toNat ∧ ∃ rt rs imm, RunsInstr s (op.instr rt rs imm) ∧ effectiveAddress rs imm s = ea)

/-- R104, R106, R126: a stopped core takes no step and changes no state, however long it is clocked and whatever the
host port shows; reset returns it to RUNNING, and no other edge does anything. That every stop is terminal is the
spec's own decision D18 (log entry 15), and that `rst` goes first is the model's choice (log entry 8). -/
def Obligations.StoppedCoreNeverChanges : Prop :=
  ∀ s : State, Stopped s → (∀ k, core.run k s = .next s) ∧
    (∀ inp : Inputs, inp.rst = true → ∃ t, clkEdge inp s = .next t ∧ t.status = .running) ∧
    ∀ inp : Inputs, inp.rst = false → clkEdge inp s = .next s

/-- R103: the step is total: it answers a next state from every state, with no fault and no refusal. -/
def Obligations.StepAlwaysAnswersANextState : Prop := ∀ s : State, ∃ t, step s = .next t

/-- R47: no instruction writes instruction memory, so every fetch of a run sees the image it started with. -/
def Obligations.NoRunWritesInstructionMemory : Prop :=
  ∀ (s t : State) (k : Nat), core.run k s = .next t → t.imem = s.imem

/-- R23, R16: a data word changes only in a step of `sw`, at its effective address, to the value of its `rt`. -/
def Obligations.OnlyAStoreChangesDataMemory : Prop :=
  ∀ (s t : State) (a : Nat), Memory.wf Config.dmemWords s.dmem → step s = .next t → t.readData a ≠ s.readData a →
    ∃ rt rs imm, RunsInstr s (.sw rt rs imm) ∧ a = (effectiveAddress rs imm s).toNat ∧ a < 1024 ∧
      t.readData a = s.readReg rt

/-- R16: a register changes only in a step of an instruction whose destination it is. -/
def Obligations.OnlyTheDestinationRegisterChanges : Prop :=
  ∀ (s t : State) (q : Reg), step s = .next t → t.readReg q ≠ s.readReg q →
    ∃ i, RunsInstr s i ∧ destination i = some q

/-- R19: `halt` is the only instruction that writes RunFlag, and it clears it; no step sets it. -/
def Obligations.OnlyHaltWritesRunFlag : Prop :=
  ∀ s t : State, step s = .next t → t.runFlag ≠ s.runFlag → RunsInstr s .halt ∧ t.runFlag = false

/-- R21, R101, R106: the event log is the sequence of the unsupported events, one for each step that decodes
UNSUPPORTED and none for any other step. The log is the spec's own form of "logged" (D11; log entry 15). -/
def Obligations.LogIsTheSequenceOfUnsupportedEvents : Prop :=
  ∀ s t : State, step s = .next t →
    t.log = s.log ++ (unsupEvent s).toList ∧
    ∀ e, unsupEvent s = some e ↔ RunsUnsupported s ∧ e = ⟨s.pc, s.readInstr s.pc.toNat⟩

/-- R95, R54: only `j` and `jal` move `pc` backward or leave it where it is; a branch never does. The spec marks this
as its own inference (R54, R95; log entry 15). -/
def Obligations.BackwardTransfersAreJumps : Prop :=
  ∀ (s t : State) (i : Instr), RunsInstr s i → step s = .next t → t.status = .running → t.pc.toNat ≤ s.pc.toNat →
    ∃ target, i = .j target ∨ i = .jal target

/-- R44, R131: a `lw` right after a `sw` to the same effective address returns the word stored. -/
def Obligations.LoadAfterStoreReturnsTheStoredWord : Prop :=
  ∀ (s : State) (rt rs : Reg) (imm : Imm) (rt' rs' : Reg) (imm' : Imm), Memory.wf Config.dmemWords s.dmem →
    RunsInstr s (.sw rt rs imm) → s.pc.toNat + 1 < 4096 →
    decode (s.readInstr (s.pc.toNat + 1)) (s.readReg 2) = .ok (.lw rt' rs' imm') →
    (effectiveAddress rs imm s).toNat < 1024 → effectiveAddress rs' imm' s = effectiveAddress rs imm s →
    ∃ t u, step s = .next t ∧ step t = .next u ∧ u.readReg rt' = s.readReg rt

/-- R56: the fields an instruction does not use are ignored. Two R-type ALU words that differ only in `shamt`, or two shift
words that differ only in `rs` (NOP among them), make the same step. -/
def Obligations.IgnoredFieldsMakeNoDifference : Prop :=
  ∀ (s : State) (w w' : Word), Memory.wf Config.imemWords s.imem → Steps s → bits w 26 6 = 0 →
    ((bits w 0 6 ∈ [32, 34, 36, 37, 39, 42] ∧ w &&& 0xFFFFF83F = w' &&& 0xFFFFF83F) ∨
      (bits w 0 6 ∈ [0, 2, 3] ∧ w &&& 0xFC1FFFFF = w' &&& 0xFC1FFFFF)) →
    ∃ t u, step (s.writeInstr s.pc.toNat w) = .next t ∧ step (s.writeInstr s.pc.toNat w') = .next u ∧ AgreeButInstr t u

/-- R21: nothing inside the core reads the event log: with another log, the step does the same. The log is the spec's
own (D11; log entry 15). -/
def Obligations.EventLogDoesNotInfluenceTheStep : Prop :=
  ∀ (s t : State) (l : List UnsupportedEvent), step s = .next t →
    step { s with log := l } = .next { t with log := l ++ (unsupEvent s).toList }

/-- The word placed for the next fetch is the instruction the next step runs, for every word the decoder reads from the
opcode table (log entry 2: the halt word's condition is preset with it). -/
def Obligations.PlacedWordIsTheNextInstruction : Prop :=
  ∀ (s : State) (w : Nat) (i : Instr), Memory.wf Config.imemWords s.imem → Steps s →
    decodeTableWord 32 w = some i → RunsInstr (s.withFetchWord 32 w) i

/-! ## The host -/

/-- R108, R49: before the first step, loading N words writes exactly the indices 0 to N-1, in order, and changes
nothing else. The load as a transaction is the spec's own D3 (log entry 15). That a load outside its window writes
nothing is the spec's for a stopped core and with `run = 1`, and the model's reading for a core paused in mid-program
(log entry 8). -/
def Obligations.HostLoadWritesExactlyTheFirstWords : Prop :=
  (∀ (space : Space) (ws : List Word) (s : State), Memory.wf Config.imemWords s.imem →
    Memory.wf Config.dmemWords s.dmem → s.beforeFirstStep = true → ws.length ≤ space.words →
    ∃ t, hostLoad false space (lines ws) s = .next t ∧
      (∀ i, t.peekHost (.memory space) i = ws[i]?.getD (s.peekHost (.memory space) i)) ∧
      (∀ other, other ≠ space → ∀ i, t.peekHost (.memory other) i = s.peekHost (.memory other) i) ∧
      SameRegs s t ∧ t.pc = s.pc ∧ SameControl s t) ∧
  ∀ (run : Bool) (space : Space) (ls : List (Option Nat)) (s : State), run = true ∨ s.beforeFirstStep = false →
    hostLoad run space ls s = .next s

/-- R108, R119: before the first step, a load of more words than the target holds is refused with CapacityExceeded. The
load as a transaction is the spec's own D3 (log entry 15). -/
def Obligations.HostLoadRefusesMoreThanCapacity : Prop :=
  ∀ (space : Space) (ws : List Word) (s : State), s.beforeFirstStep = true → space.words < ws.length →
    hostLoad false space (lines ws) s = .refused (.capacityExceeded space)

/-- R108, D14: before the first step, a line that is no hexadecimal integer, or whose value needs more than 32 bits, is
refused as malformed (a value too wide is the spec's own D14, log entry 15). That the FIRST defect names the refusal is
the model's choice (log entry 12). -/
def Obligations.HostLoadRefusesAMalformedLine : Prop :=
  ∀ (space : Space) (ws : List Word) (bad : Option Nat) (rest : List (Option Nat)) (s : State),
    s.beforeFirstStep = true → ws.length < space.words → (∀ v, bad = some v → 2 ^ 32 ≤ v) →
    hostLoad false space (lines ws ++ bad :: rest) s = .refused (.malformedInput ws.length)

/-- R106, R108, R110, I17: with `run = 0` and before the first step the host writes a register, an instruction word or
a data word, and nothing else changes; outside that window a host write changes nothing. The port and the preset are
the spec's own D3, D9 and D27 (log entry 15). That a write to a core paused in mid-program is ignored is the model's
reading (log entry 8), and that `beforeFirstStep` is the window is log entry 18. -/
def Obligations.HostWritesOnlyWhileNotRunning : Prop :=
  ∀ (s : State) (v : Word) (sel : BitVec 2) (addr : BitVec 12),
    (∀ run : Bool, run = true ∨ s.beforeFirstStep = false → hostWrite run sel addr v s = .next s) ∧
    (s.beforeFirstStep = true →
      (addr.toNat < 32 → ∃ t r, hostWrite false 2 addr v s = .next t ∧ r.val = addr.toNat ∧ t.readReg r = v ∧
        OnlyReg r s t) ∧
      (addr.toNat < 1024 → Memory.wf Config.dmemWords s.dmem → ∃ t, hostWrite false 1 addr v s = .next t ∧
        t.readData addr.toNat = v ∧ OnlyData addr.toNat s t) ∧
      (Memory.wf Config.imemWords s.imem → ∃ t, hostWrite false 0 addr v s = .next t ∧ t.readInstr addr.toNat = v ∧
        (∀ i, i ≠ addr.toNat → t.readInstr i = s.readInstr i) ∧ SameRegs s t ∧ t.pc = s.pc ∧ SameData s t ∧
        SameControl s t))

/-- R106, R109: the host reads a word that exists while `run = 0` or after a stop; while the core runs the model gives
`host_rdata` no value (log entry 10). The port is the spec's own D3 and D27 (log entry 15). -/
def Obligations.HostReadsOnlyWhileNotRunning : Prop :=
  ∀ (s : State) (run : Bool) (addr : BitVec 12),
    (run = true → s.status = .running → ∀ sel, hostRead run sel addr s = none) ∧
    (run = false ∨ Stopped s →
      hostRead run 0 addr s = some (s.readInstr addr.toNat) ∧
      (addr.toNat < 1024 → hostRead run 1 addr s = some (s.readData addr.toNat)) ∧
      (∀ r : Reg, addr.toNat = r.val → hostRead run 2 addr s = some (s.readReg r)))

/-- R106: an edge with `run = 1` takes one step of a running core and leaves a stopped one alone, whatever the host
port shows; with `run = 0` it is a host write where the strobe is set, and nothing happens where it is not or where a
step has been taken or the core has stopped. `rst` is low. That `run = 1` goes before the write strobe, and that a
paused core is not written, is log entry 8; the ports are the spec's own D3 (log entry 15). -/
def Obligations.ClockEdgeStepsOnlyARunningCore : Prop :=
  ∀ (inp : Inputs) (s : State), inp.rst = false →
    (inp.run = true → s.status = .running → clkEdge inp s = step s) ∧
    (inp.run = true → Stopped s → clkEdge inp s = .next s) ∧
    (inp.run = false → inp.hostWe = true →
      clkEdge inp s = hostWrite false inp.hostSel inp.hostAddr inp.hostWdata s) ∧
    (inp.run = false → inp.hostWe = false ∨ s.beforeFirstStep = false → clkEdge inp s = .next s)

/-- R112: a trace event shows the two operands, from before the step, of a `sub` that the step runs, and there is one
exactly when the implementation's free choice emits it (log entry 11). -/
def Obligations.SubTraceShowsTheOperandsOfSub : Prop :=
  ∀ (s : State) (a b : Word), subTrace s = some (a, b) ↔
    (∃ rd rs rt shamt, RunsInstr s (.sub rd rs rt shamt) ∧ a = s.readReg rs ∧ b = s.readReg rt) ∧
      Config.emitsSubTrace s.pc a b = true

/-- R108, R110: the host's window is open after reset, every step closes it, an edge without a step leaves it as it is,
and only reset opens it again. That `beforeFirstStep` reads the window off the status and `pc` is the model's inference
(log entry 18): no `j` can land at index 0 (R91). -/
def Obligations.NoStepReturnsToTheHostWindow : Prop :=
  State.reset.beforeFirstStep = true ∧
  (∀ s t : State, step s = .next t → t.beforeFirstStep = false) ∧
  (∀ (inp : Inputs) (s t : State), inp.rst = false → s.beforeFirstStep = false → clkEdge inp s = .next t →
    t.beforeFirstStep = false) ∧
  (∀ (inp : Inputs) (s t : State), inp.rst = false → inp.run = false → clkEdge inp s = .next t →
    t.beforeFirstStep = s.beforeFirstStep)

/-- R128, R108, R110: the boot sequence gives a state with the program and the data at the first indices, 0 in every
other word and in every register that is not preset, the last preset of a register in it, `pc` 0 and the rest as after
reset. The preset is the spec's own D9 (log entry 15). -/
def Obligations.BootPlacesTheProgramTheDataAndThePresets : Prop :=
  ∀ (ws ds : List Word) (presets : List (Reg × Word)), ws.length ≤ 4096 → ds.length ≤ 1024 →
    ∃ s, boot (lines ws) (lines ds) presets = .next s ∧
      (∀ i, s.readInstr i = ws[i]?.getD 0) ∧ (∀ i, s.readData i = ds[i]?.getD 0) ∧
      (∀ r, s.readReg r = (presets.reverse.lookup r).getD 0) ∧ s.pc = 0 ∧ SameControl State.reset s
end

