-- ==== Sys2Proof/Laws/Width.lean ====
section
/-! SUPPORT. The parameters of R6 as numbers: the bound of each type, and the powers of two that its arithmetic reduces by.
`omega` reads these, and does not unfold Config. -/

namespace Sys2Proof

@[simp] theorem two_pow_xlen : 2 ^ Config.xlen = 4294967296 := rfl
@[simp] theorem two_pow_pcWidth : 2 ^ Config.pcWidth = 4294967296 := rfl
@[simp] theorem two_pow_immWidth : 2 ^ Config.immWidth = 65536 := rfl
@[simp] theorem two_pow_targetWidth : 2 ^ Config.targetWidth = 67108864 := rfl

/-- A word is below 2^XLEN. -/
theorem word_lt (w : Word) : w.toNat < 4294967296 := w.isLt

/-- A program counter is below 2^PC_WIDTH. -/
theorem pc_lt (p : Pc) : p.toNat < 4294967296 := p.isLt

/-- An immediate is below 2^IMM_WIDTH. -/
theorem imm_lt (imm : Imm) : imm.toNat < 65536 := imm.isLt

/-- A target is below 2^TARGET_WIDTH. -/
theorem target_lt (target : Target) : target.toNat < 67108864 := target.isLt

/-- A register number is below NREGS. -/
theorem reg_lt (r : Reg) : r.val < 32 := r.isLt

end Sys2Proof
end

