-- ==== Sys2Proof/Laws/State.lean ====
section
/-! SUPPORT. What each update of the state leaves in each field, one lemma per field per update, and the register laws. -/

namespace Sys2Proof.Machine

/-! ## Registers -/

@[simp] theorem readReg_writeReg_same (s : State) (r : Reg) (v : Word) : (s.writeReg r v).readReg r = v := by
  change (s.x.set r.val v r.isLt)[r.val] = v
  simp

theorem readReg_writeReg_ne (s : State) {q r : Reg} (v : Word) (h : q ≠ r) :
    (s.writeReg r v).readReg q = s.readReg q := by
  have hv : r.val ≠ q.val := fun e => h (Fin.ext e.symm)
  change (s.x.set r.val v r.isLt)[q.val] = s.x[q.val]
  simp [hv]

theorem readReg_writeReg (s : State) (q r : Reg) (v : Word) :
    (s.writeReg r v).readReg q = if q = r then v else s.readReg q := by
  split
  · next h => rw [h, readReg_writeReg_same]
  · next h => exact readReg_writeReg_ne s v h

/-- Two register files that read alike are equal. -/
theorem x_ext {a b : Vector Word Config.nregs} (h : ∀ r : Reg, a.get r = b.get r) : a = b := by
  apply Vector.ext
  intro i hi
  exact h ⟨i, hi⟩

/-- Writing a register with its own value changes nothing. -/
@[simp] theorem writeReg_readReg_self (s : State) (r : Reg) : s.writeReg r (s.readReg r) = s := by
  have hx : (s.writeReg r (s.readReg r)).x = s.x := x_ext fun q => by
    change (s.writeReg r (s.readReg r)).readReg q = s.readReg q
    rw [readReg_writeReg]
    split
    · next h => rw [h]
    · rfl
  cases s
  simp only [State.writeReg] at hx ⊢
  rw [hx]

@[simp] theorem writeReg_pc (s : State) (r : Reg) (v : Word) : (s.writeReg r v).pc = s.pc := rfl
@[simp] theorem writeReg_imem (s : State) (r : Reg) (v : Word) : (s.writeReg r v).imem = s.imem := rfl
@[simp] theorem writeReg_dmem (s : State) (r : Reg) (v : Word) : (s.writeReg r v).dmem = s.dmem := rfl
@[simp] theorem writeReg_runFlag (s : State) (r : Reg) (v : Word) : (s.writeReg r v).runFlag = s.runFlag := rfl
@[simp] theorem writeReg_status (s : State) (r : Reg) (v : Word) : (s.writeReg r v).status = s.status := rfl
@[simp] theorem writeReg_log (s : State) (r : Reg) (v : Word) : (s.writeReg r v).log = s.log := rfl
@[simp] theorem writeReg_readInstr (s : State) (r : Reg) (v : Word) (i : Nat) :
    (s.writeReg r v).readInstr i = s.readInstr i := rfl
@[simp] theorem writeReg_readData (s : State) (r : Reg) (v : Word) (i : Nat) :
    (s.writeReg r v).readData i = s.readData i := rfl

/-! ## `pc` -/

@[simp] theorem setPc_x (s : State) (t : Pc) : (s.setPc t).x = s.x := rfl
@[simp] theorem setPc_pc (s : State) (t : Pc) : (s.setPc t).pc = t := rfl
@[simp] theorem setPc_imem (s : State) (t : Pc) : (s.setPc t).imem = s.imem := rfl
@[simp] theorem setPc_dmem (s : State) (t : Pc) : (s.setPc t).dmem = s.dmem := rfl
@[simp] theorem setPc_runFlag (s : State) (t : Pc) : (s.setPc t).runFlag = s.runFlag := rfl
@[simp] theorem setPc_status (s : State) (t : Pc) : (s.setPc t).status = s.status := rfl
@[simp] theorem setPc_log (s : State) (t : Pc) : (s.setPc t).log = s.log := rfl
@[simp] theorem setPc_readReg (s : State) (t : Pc) (r : Reg) : (s.setPc t).readReg r = s.readReg r := rfl
@[simp] theorem setPc_readInstr (s : State) (t : Pc) (i : Nat) : (s.setPc t).readInstr i = s.readInstr i := rfl
@[simp] theorem setPc_readData (s : State) (t : Pc) (i : Nat) : (s.setPc t).readData i = s.readData i := rfl

/-! ## Data memory -/

@[simp] theorem writeData_x (s : State) (i : Nat) (v : Word) : (s.writeData i v).x = s.x := rfl
@[simp] theorem writeData_pc (s : State) (i : Nat) (v : Word) : (s.writeData i v).pc = s.pc := rfl
@[simp] theorem writeData_imem (s : State) (i : Nat) (v : Word) : (s.writeData i v).imem = s.imem := rfl
@[simp] theorem writeData_dmem (s : State) (i : Nat) (v : Word) : (s.writeData i v).dmem = Memory.write s.dmem i v := rfl
@[simp] theorem writeData_runFlag (s : State) (i : Nat) (v : Word) : (s.writeData i v).runFlag = s.runFlag := rfl
@[simp] theorem writeData_status (s : State) (i : Nat) (v : Word) : (s.writeData i v).status = s.status := rfl
@[simp] theorem writeData_log (s : State) (i : Nat) (v : Word) : (s.writeData i v).log = s.log := rfl
@[simp] theorem writeData_readReg (s : State) (i : Nat) (v : Word) (r : Reg) :
    (s.writeData i v).readReg r = s.readReg r := rfl
@[simp] theorem writeData_readInstr (s : State) (i : Nat) (v : Word) (j : Nat) :
    (s.writeData i v).readInstr j = s.readInstr j := rfl

/-! ## Instruction memory -/

@[simp] theorem writeInstr_x (s : State) (i : Nat) (v : Word) : (s.writeInstr i v).x = s.x := rfl
@[simp] theorem writeInstr_pc (s : State) (i : Nat) (v : Word) : (s.writeInstr i v).pc = s.pc := rfl
@[simp] theorem writeInstr_imem (s : State) (i : Nat) (v : Word) :
    (s.writeInstr i v).imem = Memory.write s.imem i v := rfl
@[simp] theorem writeInstr_dmem (s : State) (i : Nat) (v : Word) : (s.writeInstr i v).dmem = s.dmem := rfl
@[simp] theorem writeInstr_runFlag (s : State) (i : Nat) (v : Word) : (s.writeInstr i v).runFlag = s.runFlag := rfl
@[simp] theorem writeInstr_status (s : State) (i : Nat) (v : Word) : (s.writeInstr i v).status = s.status := rfl
@[simp] theorem writeInstr_log (s : State) (i : Nat) (v : Word) : (s.writeInstr i v).log = s.log := rfl
@[simp] theorem writeInstr_readReg (s : State) (i : Nat) (v : Word) (r : Reg) :
    (s.writeInstr i v).readReg r = s.readReg r := rfl
@[simp] theorem writeInstr_readData (s : State) (i : Nat) (v : Word) (j : Nat) :
    (s.writeInstr i v).readData j = s.readData j := rfl

/-! ## RunFlag, status, log -/

@[simp] theorem clearRunFlag_x (s : State) : s.clearRunFlag.x = s.x := rfl
@[simp] theorem clearRunFlag_pc (s : State) : s.clearRunFlag.pc = s.pc := rfl
@[simp] theorem clearRunFlag_imem (s : State) : s.clearRunFlag.imem = s.imem := rfl
@[simp] theorem clearRunFlag_dmem (s : State) : s.clearRunFlag.dmem = s.dmem := rfl
@[simp] theorem clearRunFlag_runFlag (s : State) : s.clearRunFlag.runFlag = false := rfl
@[simp] theorem clearRunFlag_status (s : State) : s.clearRunFlag.status = s.status := rfl
@[simp] theorem clearRunFlag_log (s : State) : s.clearRunFlag.log = s.log := rfl
@[simp] theorem clearRunFlag_readReg (s : State) (r : Reg) : s.clearRunFlag.readReg r = s.readReg r := rfl
@[simp] theorem clearRunFlag_readInstr (s : State) (i : Nat) : s.clearRunFlag.readInstr i = s.readInstr i := rfl
@[simp] theorem clearRunFlag_readData (s : State) (i : Nat) : s.clearRunFlag.readData i = s.readData i := rfl

@[simp] theorem setStatus_x (s : State) (st : StopStatus) : (s.setStatus st).x = s.x := rfl
@[simp] theorem setStatus_pc (s : State) (st : StopStatus) : (s.setStatus st).pc = s.pc := rfl
@[simp] theorem setStatus_imem (s : State) (st : StopStatus) : (s.setStatus st).imem = s.imem := rfl
@[simp] theorem setStatus_dmem (s : State) (st : StopStatus) : (s.setStatus st).dmem = s.dmem := rfl
@[simp] theorem setStatus_runFlag (s : State) (st : StopStatus) : (s.setStatus st).runFlag = s.runFlag := rfl
@[simp] theorem setStatus_status (s : State) (st : StopStatus) : (s.setStatus st).status = st := rfl
@[simp] theorem setStatus_log (s : State) (st : StopStatus) : (s.setStatus st).log = s.log := rfl
@[simp] theorem setStatus_readReg (s : State) (st : StopStatus) (r : Reg) :
    (s.setStatus st).readReg r = s.readReg r := rfl
@[simp] theorem setStatus_readInstr (s : State) (st : StopStatus) (i : Nat) :
    (s.setStatus st).readInstr i = s.readInstr i := rfl
@[simp] theorem setStatus_readData (s : State) (st : StopStatus) (i : Nat) :
    (s.setStatus st).readData i = s.readData i := rfl

@[simp] theorem raiseOutOfBounds_x (s : State) (ea : Word) (op : AccessOp) : (s.raiseOutOfBounds ea op).x = s.x := rfl
@[simp] theorem raiseOutOfBounds_pc (s : State) (ea : Word) (op : AccessOp) : (s.raiseOutOfBounds ea op).pc = s.pc := rfl
@[simp] theorem raiseOutOfBounds_imem (s : State) (ea : Word) (op : AccessOp) :
    (s.raiseOutOfBounds ea op).imem = s.imem := rfl
@[simp] theorem raiseOutOfBounds_dmem (s : State) (ea : Word) (op : AccessOp) :
    (s.raiseOutOfBounds ea op).dmem = s.dmem := rfl
@[simp] theorem raiseOutOfBounds_runFlag (s : State) (ea : Word) (op : AccessOp) :
    (s.raiseOutOfBounds ea op).runFlag = s.runFlag := rfl
@[simp] theorem raiseOutOfBounds_status (s : State) (ea : Word) (op : AccessOp) :
    (s.raiseOutOfBounds ea op).status = .faultOob s.pc ea op := rfl
@[simp] theorem raiseOutOfBounds_log (s : State) (ea : Word) (op : AccessOp) :
    (s.raiseOutOfBounds ea op).log = s.log := rfl
@[simp] theorem raiseOutOfBounds_readReg (s : State) (ea : Word) (op : AccessOp) (r : Reg) :
    (s.raiseOutOfBounds ea op).readReg r = s.readReg r := rfl
@[simp] theorem raiseOutOfBounds_readInstr (s : State) (ea : Word) (op : AccessOp) (i : Nat) :
    (s.raiseOutOfBounds ea op).readInstr i = s.readInstr i := rfl
@[simp] theorem raiseOutOfBounds_readData (s : State) (ea : Word) (op : AccessOp) (i : Nat) :
    (s.raiseOutOfBounds ea op).readData i = s.readData i := rfl

@[simp] theorem logUnsupported_x (s : State) (w : Word) : (s.logUnsupported w).x = s.x := rfl
@[simp] theorem logUnsupported_pc (s : State) (w : Word) : (s.logUnsupported w).pc = s.pc := rfl
@[simp] theorem logUnsupported_imem (s : State) (w : Word) : (s.logUnsupported w).imem = s.imem := rfl
@[simp] theorem logUnsupported_dmem (s : State) (w : Word) : (s.logUnsupported w).dmem = s.dmem := rfl
@[simp] theorem logUnsupported_runFlag (s : State) (w : Word) : (s.logUnsupported w).runFlag = s.runFlag := rfl
@[simp] theorem logUnsupported_status (s : State) (w : Word) : (s.logUnsupported w).status = s.status := rfl
@[simp] theorem logUnsupported_log (s : State) (w : Word) : (s.logUnsupported w).log = s.log ++ [⟨s.pc, w⟩] := rfl
@[simp] theorem logUnsupported_readReg (s : State) (w : Word) (r : Reg) :
    (s.logUnsupported w).readReg r = s.readReg r := rfl
@[simp] theorem logUnsupported_readInstr (s : State) (w : Word) (i : Nat) :
    (s.logUnsupported w).readInstr i = s.readInstr i := rfl
@[simp] theorem logUnsupported_readData (s : State) (w : Word) (i : Nat) :
    (s.logUnsupported w).readData i = s.readData i := rfl

/-! ## The end of a step: only `pc` and the status change -/

@[simp] theorem finishStep_x (s : State) : s.finishStep.x = s.x := by unfold State.finishStep; split <;> rfl
@[simp] theorem finishStep_imem (s : State) : s.finishStep.imem = s.imem := by unfold State.finishStep; split <;> rfl
@[simp] theorem finishStep_dmem (s : State) : s.finishStep.dmem = s.dmem := by unfold State.finishStep; split <;> rfl
@[simp] theorem finishStep_runFlag (s : State) : s.finishStep.runFlag = s.runFlag := by
  unfold State.finishStep; split <;> rfl
@[simp] theorem finishStep_log (s : State) : s.finishStep.log = s.log := by unfold State.finishStep; split <;> rfl
@[simp] theorem finishStep_readReg (s : State) (r : Reg) : s.finishStep.readReg r = s.readReg r := by
  simp [State.readReg]
@[simp] theorem finishStep_readInstr (s : State) (i : Nat) : s.finishStep.readInstr i = s.readInstr i := by
  simp [State.readInstr]
@[simp] theorem finishStep_readData (s : State) (i : Nat) : s.finishStep.readData i = s.readData i := by
  simp [State.readData]

/-- A step that raised no fault advances `pc` by one and recomputes the status. -/
theorem finishStep_of_running {s : State} (h : s.status = .running) :
    s.finishStep = { s with pc := s.pc + Config.loopIncrement
                            status := stopStatus s.runFlag (s.pc + Config.loopIncrement) } := by
  simp [State.finishStep, h]

/-- A step that raised FAULT_OOB is over. -/
theorem finishStep_of_fault {s : State} {pc : Pc} {ea : Word} {op : AccessOp} (h : s.status = .faultOob pc ea op) :
    s.finishStep = s := by
  simp [State.finishStep, h]

@[simp] theorem finishStep_raiseOutOfBounds (s : State) (ea : Word) (op : AccessOp) :
    (s.raiseOutOfBounds ea op).finishStep = s.raiseOutOfBounds ea op :=
  finishStep_of_fault (raiseOutOfBounds_status s ea op)

/-! ## The status computation -/

theorem stopStatus_eq_running_iff (f : Bool) (pc : Pc) :
    stopStatus f pc = .running ↔ f = true ∧ pc.toNat < Config.imemWords := by
  unfold stopStatus
  cases f <;> simp

theorem stopStatus_eq_halted_iff (f : Bool) (pc : Pc) : stopStatus f pc = .halted ↔ f = false := by
  unfold stopStatus
  cases f
  · simp
  · simp only [Bool.true_eq_false, if_false, iff_false]
    split <;> simp

theorem stopStatus_eq_neverTerminated_iff (f : Bool) (pc : Pc) :
    stopStatus f pc = .neverTerminated ↔ f = true ∧ Config.imemWords ≤ pc.toNat := by
  unfold stopStatus
  cases f <;> simp

theorem stopStatus_ne_faultOob (f : Bool) (pc p : Pc) (ea : Word) (op : AccessOp) : stopStatus f pc ≠ .faultOob p ea op := by
  unfold stopStatus
  split
  · simp
  · split <;> simp

end Sys2Proof.Machine
end

