-- ==== Sys2Proof/Laws/Decode.lean ====
section
/-! SUPPORT. The fields of a word and the encoded words as numbers, and what the decoder answers. -/

namespace Sys2Proof

/-! ## Fields as numbers (R51) -/

theorem opcodeField_toNat (w : Word) : (opcodeField w).toNat = w.toNat / 2 ^ 26 := by
  have := word_lt w
  simp only [opcodeField, BitVec.extractLsb'_toNat, Nat.shiftRight_eq_div_pow]
  omega

theorem functField_toNat (w : Word) : (functField w).toNat = w.toNat % 64 := by
  simp [functField, BitVec.extractLsb'_toNat]

theorem immField_toNat (w : Word) : (immField w).toNat = w.toNat % 2 ^ 16 := by
  simp [immField, BitVec.extractLsb'_toNat]

theorem targetField_toNat (w : Word) : (targetField w).toNat = w.toNat % 2 ^ 26 := by
  simp [targetField, BitVec.extractLsb'_toNat]

theorem regField_val (w : Word) (lo : Nat) : (regField w lo).val = w.toNat / 2 ^ lo % 32 := by
  simp [regField, BitVec.extractLsb'_toNat, Nat.shiftRight_eq_div_pow]

theorem rsField_val (w : Word) : (rsField w).val = w.toNat / 2 ^ 21 % 32 := regField_val w 21

theorem rtField_val (w : Word) : (rtField w).val = w.toNat / 2 ^ 16 % 32 := regField_val w 16

theorem rdField_val (w : Word) : (rdField w).val = w.toNat / 2 ^ 11 % 32 := regField_val w 11

theorem shamtField_val (w : Word) : (shamtField w).val = w.toNat / 2 ^ 6 % 32 := by
  change (w.extractLsb' 6 5).toNat = _
  simp [BitVec.extractLsb'_toNat, Nat.shiftRight_eq_div_pow]

theorem opcodeField_eq_zero_iff (w : Word) : opcodeField w = 0 ↔ w.toNat / 2 ^ 26 = 0 := by
  rw [← opcodeField_toNat]
  constructor
  · intro h; rw [h]; rfl
  · intro h; exact BitVec.eq_of_toNat_eq (by simpa using h)

/-! ## Encoded words as numbers (R68) -/

/-- Joining two numbers that share no bit is adding them. -/
theorem or_eq_add {a b k : Nat} (hb : b < 2 ^ k) : a * 2 ^ k ||| b = a * 2 ^ k + b := by
  rw [← Nat.shiftLeft_eq, Nat.shiftLeft_add_eq_or_of_lt hb]

theorem encodeR_toNat (rs rt rd : Reg) (shamt : Shamt) (funct : BitVec 6) :
    (encodeR rs rt rd shamt funct).toNat =
      rs.val * 2 ^ 21 + rt.val * 2 ^ 16 + rd.val * 2 ^ 11 + shamt.val * 2 ^ 6 + funct.toNat := by
  have hs := reg_lt rs
  have ht := reg_lt rt
  have hd := reg_lt rd
  have ha := shamt.isLt
  have hf := funct.isLt
  simp only [encodeR, BitVec.toNat_or, BitVec.toNat_shiftLeft, BitVec.toNat_ofNat, BitVec.toNat_setWidth,
    Nat.shiftLeft_eq, two_pow_xlen]
  rw [Nat.mod_eq_of_lt (by omega : rs.val < 4294967296), Nat.mod_eq_of_lt (by omega : rt.val < 4294967296),
    Nat.mod_eq_of_lt (by omega : rd.val < 4294967296), Nat.mod_eq_of_lt (by omega : shamt.val < 4294967296),
    Nat.mod_eq_of_lt (by omega : rs.val * 2 ^ 21 < 4294967296), Nat.mod_eq_of_lt (by omega : rt.val * 2 ^ 16 < 4294967296),
    Nat.mod_eq_of_lt (by omega : rd.val * 2 ^ 11 < 4294967296), Nat.mod_eq_of_lt (by omega : shamt.val * 2 ^ 6 < 4294967296),
    Nat.mod_eq_of_lt (by omega : funct.toNat < 4294967296)]
  rw [or_eq_add (by omega : rt.val * 2 ^ 16 < 2 ^ 21),
    (by omega : rs.val * 2 ^ 21 + rt.val * 2 ^ 16 = (rs.val * 32 + rt.val) * 2 ^ 16),
    or_eq_add (by omega : rd.val * 2 ^ 11 < 2 ^ 16),
    (by omega : (rs.val * 32 + rt.val) * 2 ^ 16 + rd.val * 2 ^ 11 =
      ((rs.val * 32 + rt.val) * 32 + rd.val) * 2 ^ 11),
    or_eq_add (by omega : shamt.val * 2 ^ 6 < 2 ^ 11),
    (by omega : ((rs.val * 32 + rt.val) * 32 + rd.val) * 2 ^ 11 + shamt.val * 2 ^ 6 =
      (((rs.val * 32 + rt.val) * 32 + rd.val) * 32 + shamt.val) * 2 ^ 6),
    or_eq_add (by omega : funct.toNat < 2 ^ 6)]

theorem encodeI_toNat (opcode : BitVec 6) (rs rt : Reg) (imm : Imm) :
    (encodeI opcode rs rt imm).toNat =
      opcode.toNat * 2 ^ 26 + rs.val * 2 ^ 21 + rt.val * 2 ^ 16 + imm.toNat := by
  have hs := reg_lt rs
  have ht := reg_lt rt
  have ho := opcode.isLt
  have hi := imm_lt imm
  simp only [encodeI, BitVec.toNat_or, BitVec.toNat_shiftLeft, BitVec.toNat_ofNat, BitVec.toNat_setWidth,
    Nat.shiftLeft_eq, two_pow_xlen]
  rw [Nat.mod_eq_of_lt (by omega : rs.val < 4294967296), Nat.mod_eq_of_lt (by omega : rt.val < 4294967296),
    Nat.mod_eq_of_lt (by omega : opcode.toNat < 4294967296),
    Nat.mod_eq_of_lt (by omega : opcode.toNat * 2 ^ 26 < 4294967296),
    Nat.mod_eq_of_lt (by omega : rs.val * 2 ^ 21 < 4294967296), Nat.mod_eq_of_lt (by omega : rt.val * 2 ^ 16 < 4294967296),
    Nat.mod_eq_of_lt (by omega : imm.toNat < 4294967296)]
  rw [or_eq_add (by omega : rs.val * 2 ^ 21 < 2 ^ 26),
    (by omega : opcode.toNat * 2 ^ 26 + rs.val * 2 ^ 21 = (opcode.toNat * 32 + rs.val) * 2 ^ 21),
    or_eq_add (by omega : rt.val * 2 ^ 16 < 2 ^ 21),
    (by omega : (opcode.toNat * 32 + rs.val) * 2 ^ 21 + rt.val * 2 ^ 16 =
      ((opcode.toNat * 32 + rs.val) * 32 + rt.val) * 2 ^ 16),
    or_eq_add (by omega : imm.toNat < 2 ^ 16)]

theorem encodeJ_toNat (opcode : BitVec 6) (target : Target) :
    (encodeJ opcode target).toNat = opcode.toNat * 2 ^ 26 + target.toNat := by
  have ho := opcode.isLt
  have ht := target_lt target
  simp only [encodeJ, BitVec.toNat_or, BitVec.toNat_shiftLeft, BitVec.toNat_setWidth, Nat.shiftLeft_eq, two_pow_xlen]
  rw [Nat.mod_eq_of_lt (by omega : opcode.toNat < 4294967296),
    Nat.mod_eq_of_lt (by omega : opcode.toNat * 2 ^ 26 < 4294967296),
    Nat.mod_eq_of_lt (by omega : target.toNat < 4294967296), or_eq_add ht]

/-! ## The masks of the opcode table as numbers -/

/-- The opcode mask keeps bits 31:26. -/
theorem and_opcodeMask (w : Word) : (w &&& 0xFC000000).toNat = w.toNat / 2 ^ 26 * 2 ^ 26 := by
  have hw := word_lt w
  have h : w &&& 0xFC000000#32 = (w >>> 26) <<< 26 := by
    apply BitVec.eq_of_getLsbD_eq
    intro i hi
    have hm : (0xFC000000#32).getLsbD i = decide (26 ≤ i) := by
      revert hi
      revert i
      decide
    rw [BitVec.getLsbD_and, hm, BitVec.getLsbD_shiftLeft, BitVec.getLsbD_ushiftRight]
    by_cases hi' : i < 26
    · simp [hi']
    · simp [hi', hi, (by omega : 26 ≤ i), (by omega : 26 + (i - 26) = i)]
  change (w &&& 0xFC000000#32).toNat = _
  rw [h, BitVec.toNat_shiftLeft, BitVec.toNat_ushiftRight, Nat.shiftRight_eq_div_pow, Nat.shiftLeft_eq,
    two_pow_xlen]
  omega

/-- The opcode and funct mask keeps bits 31:26 and 5:0. -/
theorem and_functMask (w : Word) : (w &&& 0xFC00003F).toNat = w.toNat / 2 ^ 26 * 2 ^ 26 + w.toNat % 64 := by
  have h : (0xFC00003F : Word) = 0xFC000000 ||| 0x3F := rfl
  have hl : (w &&& 0x3F).toNat = w.toNat % 64 := by
    rw [BitVec.toNat_and]
    exact Nat.and_two_pow_sub_one_eq_mod w.toNat 6
  rw [h, BitVec.and_or_distrib_left, BitVec.toNat_or, and_opcodeMask, hl, or_eq_add (by omega)]

/-! ## What the decoder answers (R57): one lemma for each of its four rows of cases -/

theorem decode_halt : decode Config.haltWord Config.haltCode = .ok .halt := rfl

theorem decode_zero (v : Word) : decode 0 v = .ok .nop := by
  rw [decode, if_neg fun h => absurd h.1 (by decide), if_pos rfl]

/-- Opcode 0, for a word that is neither NOP nor a firing halt. -/
theorem decode_of_opcode_zero {w v : Word} (hh : ¬(w = Config.haltWord ∧ v = Config.haltCode)) (h0 : w ≠ 0)
    (ho : w.toNat / 2 ^ 26 = 0) : decode w v = decodeFunct w := by
  rw [decode, if_neg hh, if_neg h0, if_pos ((opcodeField_eq_zero_iff w).mpr ho)]

/-- Any other opcode. -/
theorem decode_of_opcode {w v : Word} (ho : w.toNat / 2 ^ 26 ≠ 0) : decode w v = decodeOpcode w := by
  have hh : ¬(w = Config.haltWord ∧ v = Config.haltCode) := by
    rintro ⟨rfl, -⟩
    exact ho (by decide)
  have h0 : w ≠ 0 := by
    rintro rfl
    exact ho (by decide)
  rw [decode, if_neg hh, if_neg h0, if_neg (mt (opcodeField_eq_zero_iff w).mp ho)]

/-- Every word falls under exactly one of the four rows of cases. -/
theorem decode_cases (w v : Word) :
    (w = Config.haltWord ∧ v = Config.haltCode ∧ decode w v = .ok .halt) ∨
    (w = 0 ∧ decode w v = .ok .nop) ∨
    (¬(w = Config.haltWord ∧ v = Config.haltCode) ∧ w ≠ 0 ∧ w.toNat / 2 ^ 26 = 0 ∧ decode w v = decodeFunct w) ∨
    (w.toNat / 2 ^ 26 ≠ 0 ∧ decode w v = decodeOpcode w) := by
  by_cases hh : w = Config.haltWord ∧ v = Config.haltCode
  · obtain ⟨rfl, rfl⟩ := hh
    exact .inl ⟨rfl, rfl, rfl⟩
  · by_cases h0 : w = 0
    · subst h0
      exact .inr (.inl ⟨rfl, decode_zero v⟩)
    · by_cases ho : w.toNat / 2 ^ 26 = 0
      · exact .inr (.inr (.inl ⟨hh, h0, ho, decode_of_opcode_zero hh h0 ho⟩))
      · exact .inr (.inr (.inr ⟨ho, decode_of_opcode ho⟩))

end Sys2Proof
end

