-- ==== Sys2Proof/Laws/Memory.lean ====
section
/-! SUPPORT. The laws of a memory: a word is read back, its neighbours are kept, and the canonical form is kept by every
memory operation. -/

namespace Sys2Proof.Machine

theorem wf_nil (size : Nat) : Memory.wf size [] := by simp [Memory.wf]

theorem wf_cons {size j : Nat} {u : Word} {m : Memory} :
    Memory.wf size ((j, u) :: m) ↔
      (∀ c ∈ m, j < c.1) ∧ j < size ∧ u ≠ Memory.unlisted ∧ Memory.wf size m := by
  simp only [Memory.wf, List.pairwise_cons, List.forall_mem_cons]
  tauto

/-- An index below every listed one reads as unlisted. -/
theorem read_of_lt {m : Memory} {i : Nat} (h : ∀ c ∈ m, i < c.1) : Memory.read m i = Memory.unlisted := by
  induction m with
  | nil => rfl
  | cons c m ih =>
    obtain ⟨j, u⟩ := c
    have hj : i < j := h (j, u) (by simp)
    simp only [Memory.read, if_neg (by omega : i ≠ j)]
    exact ih fun c hc => h c (by simp [hc])

/-- In a canonical memory an index reads as unlisted exactly when it is not listed. -/
theorem read_eq_unlisted_of_ge {size : Nat} {m : Memory} (h : Memory.wf size m) {i : Nat} (hi : size ≤ i) :
    Memory.read m i = Memory.unlisted := by
  induction m with
  | nil => rfl
  | cons c m ih =>
    obtain ⟨j, u⟩ := c
    obtain ⟨-, hj, -, hm⟩ := wf_cons.mp h
    simp only [Memory.read, if_neg (by omega : i ≠ j)]
    exact ih hm

/-- Every index listed after a write was listed before, or is the one written. -/
theorem mem_write_index {m : Memory} {i : Nat} {v : Word} {c : WordCell} (h : c ∈ Memory.write m i v) :
    c.1 = i ∨ c ∈ m := by
  induction m with
  | nil =>
    unfold Memory.write at h
    split at h <;> simp_all
  | cons d m ih =>
    obtain ⟨j, u⟩ := d
    unfold Memory.write at h
    split at h
    · split at h <;> simp_all
      rcases h with rfl | h | h <;> simp_all
    · split at h
      · split at h <;> simp_all
        rcases h with rfl | h <;> simp_all
      · rcases List.mem_cons.mp h with rfl | h
        · exact .inr (by simp)
        · rcases ih h with h | h
          · exact .inl h
          · exact .inr (by simp [h])

/-- A write inside the memory keeps the canonical form. -/
theorem write_wf {size : Nat} {m : Memory} (h : Memory.wf size m) {i : Nat} (hi : i < size) (v : Word) :
    Memory.wf size (Memory.write m i v) := by
  induction m with
  | nil =>
    unfold Memory.write
    split
    · exact h
    · next hv => exact wf_cons.mpr ⟨by simp, hi, hv, h⟩
  | cons c m ih =>
    obtain ⟨j, u⟩ := c
    obtain ⟨hlt, hj, hu, hm⟩ := wf_cons.mp h
    unfold Memory.write
    split
    · next hij =>
      split
      · exact h
      · next hv =>
        refine wf_cons.mpr ⟨?_, hi, hv, h⟩
        rintro c hc
        rcases List.mem_cons.mp hc with rfl | hc
        · exact hij
        · have := hlt c hc; omega
    · split
      · next hij =>
        split
        · exact hm
        · next hv => exact wf_cons.mpr ⟨fun c hc => by have := hlt c hc; omega, hi, hv, hm⟩
      · refine wf_cons.mpr ⟨fun c hc => ?_, hj, hu, ih hm⟩
        rcases mem_write_index hc with h | h
        · omega
        · exact hlt c h

/-- A read after a write to the same index gives the word written. -/
theorem read_write_same {size : Nat} {m : Memory} (h : Memory.wf size m) (i : Nat) (v : Word) :
    Memory.read (Memory.write m i v) i = v := by
  induction m with
  | nil =>
    unfold Memory.write
    split
    · next hv => rw [hv]; rfl
    · simp [Memory.read]
  | cons c m ih =>
    obtain ⟨j, u⟩ := c
    obtain ⟨hlt, -, -, hm⟩ := wf_cons.mp h
    unfold Memory.write
    split
    · next hij =>
      split
      · next hv =>
        rw [hv]
        refine read_of_lt fun c hc => ?_
        rcases List.mem_cons.mp hc with rfl | hc
        · exact hij
        · have := hlt c hc; omega
      · simp [Memory.read]
    · split
      · next hij =>
        split
        · next hv =>
          rw [hv]
          exact read_of_lt fun c hc => by have := hlt c hc; omega
        · simp [Memory.read]
      · next hij =>
        simp only [Memory.read, if_neg hij]
        exact ih hm

/-- A write leaves every other index alone. -/
theorem read_write_ne (m : Memory) {i k : Nat} (v : Word) (hk : k ≠ i) :
    Memory.read (Memory.write m i v) k = Memory.read m k := by
  induction m with
  | nil =>
    unfold Memory.write
    split <;> simp [Memory.read, hk]
  | cons c m ih =>
    obtain ⟨j, u⟩ := c
    unfold Memory.write
    split
    · split
      · rfl
      · simp [Memory.read, hk]
    · split
      · next hij =>
        subst hij
        split <;> simp [Memory.read, hk]
      · simp only [Memory.read, ih]

theorem readData_writeData_same {s : State} (h : Memory.wf Config.dmemWords s.dmem) (i : Nat) (v : Word) :
    (s.writeData i v).readData i = v := read_write_same h i v

theorem readData_writeData_ne (s : State) {i k : Nat} (v : Word) (hk : k ≠ i) :
    (s.writeData i v).readData k = s.readData k := read_write_ne s.dmem v hk

theorem readInstr_writeInstr_same {s : State} (h : Memory.wf Config.imemWords s.imem) (i : Nat) (v : Word) :
    (s.writeInstr i v).readInstr i = v := read_write_same h i v

theorem readInstr_writeInstr_ne (s : State) {i k : Nat} (v : Word) (hk : k ≠ i) :
    (s.writeInstr i v).readInstr k = s.readInstr k := read_write_ne s.imem v hk

/-- The two memories of the state after reset are canonical. -/
theorem reset_memories_wf :
    Memory.wf Config.imemWords State.reset.imem ∧ Memory.wf Config.dmemWords State.reset.dmem :=
  ⟨wf_nil _, wf_nil _⟩

end Sys2Proof.Machine
end

