-- ==== Sys2Proof/Laws/Exec.lean ====
section
/-! SUPPORT. What the shared operations and the meanings can do: operand values as numbers, the frames of the updates, and
one lemma that lists every effect of `exec`. -/

namespace Sys2Proof.Machine

/-! ## Operands as numbers -/

theorem zextImm_toNat (imm : Imm) : (zextImm imm).toNat = imm.toNat := by
  have := imm_lt imm
  simp only [zextImm, BitVec.toNat_setWidth, two_pow_xlen]
  omega

theorem branchOffset_toNat (imm : Imm) : (branchOffset imm).toNat = 4 * imm.toNat := by
  have := imm_lt imm
  simp only [branchOffset, BitVec.toNat_shiftLeft, BitVec.toNat_setWidth, Nat.shiftLeft_eq, Config.branchShift,
    two_pow_pcWidth]
  omega

theorem branchTarget_toNat (imm : Imm) (s : State) :
    (branchTarget imm s).toNat = (s.pc.toNat + 4 * imm.toNat) % 2 ^ 32 := by
  rw [branchTarget, BitVec.toNat_add, branchOffset_toNat]

theorem jumpTarget_toNat (target : Target) : (jumpTarget target).toNat = target.toNat := by
  have := target_lt target
  simp only [jumpTarget, BitVec.toNat_setWidth, two_pow_pcWidth]
  omega

theorem effectiveAddress_toNat (rs : Reg) (imm : Imm) (s : State) :
    (effectiveAddress rs imm s).toNat = ((s.readReg rs).toNat + imm.toNat) % 2 ^ 32 := by
  rw [effectiveAddress, BitVec.toNat_add, zextImm_toNat]

theorem linkValue_toNat (s : State) : (linkValue s).toNat = (s.pc.toNat + 4) % 2 ^ 32 := by
  simp [linkValue, BitVec.toNat_add]

/-- The effective address reads one register, so states that agree on it agree on the address. -/
theorem effectiveAddress_congr {s t : State} {rs : Reg} (h : t.readReg rs = s.readReg rs) (imm : Imm) :
    effectiveAddress rs imm t = effectiveAddress rs imm s := by simp only [effectiveAddress, h]

theorem inDataMemory_iff (ea : Word) : inDataMemory ea = true ↔ ea.toNat < Config.dmemWords := by
  simp [inDataMemory]

/-! ## Frames of the updates -/

theorem onlyReg_writeReg (s : State) (r : Reg) (v : Word) : OnlyReg r s (s.writeReg r v) :=
  ⟨fun _ hq => readReg_writeReg_ne s v hq, rfl, fun _ => rfl, fun _ => rfl, rfl, rfl, rfl⟩

theorem onlyData_writeData (s : State) (i : Nat) (v : Word) : OnlyData i s (s.writeData i v) :=
  ⟨fun _ => rfl, rfl, fun _ => rfl, fun _ hk => readData_writeData_ne s v hk, rfl, rfl, rfl⟩

theorem onlyPc_setPc (s : State) (t : Pc) : OnlyPc s (s.setPc t) :=
  ⟨fun _ => rfl, fun _ => rfl, fun _ => rfl, rfl, rfl, rfl⟩

theorem onlyPc_refl (s : State) : OnlyPc s s := ⟨fun _ => rfl, fun _ => rfl, fun _ => rfl, rfl, rfl, rfl⟩

/-! ## Loads and stores, by where the address falls -/

theorem exec_lw_inside {rt rs : Reg} {imm : Imm} {s : State}
    (h : (effectiveAddress rs imm s).toNat < Config.dmemWords) :
    exec (.lw rt rs imm) s = .next (s.writeReg rt (s.readData (effectiveAddress rs imm s).toNat)) :=
  if_pos ((inDataMemory_iff _).mpr h)

theorem exec_lw_outside {rt rs : Reg} {imm : Imm} {s : State}
    (h : Config.dmemWords ≤ (effectiveAddress rs imm s).toNat) :
    exec (.lw rt rs imm) s = .next (s.raiseOutOfBounds (effectiveAddress rs imm s) .lw) :=
  if_neg fun hi => by have := (inDataMemory_iff _).mp hi; omega

theorem exec_sw_inside {rt rs : Reg} {imm : Imm} {s : State}
    (h : (effectiveAddress rs imm s).toNat < Config.dmemWords) :
    exec (.sw rt rs imm) s = .next (s.writeData (effectiveAddress rs imm s).toNat (s.readReg rt)) :=
  if_pos ((inDataMemory_iff _).mpr h)

theorem exec_sw_outside {rt rs : Reg} {imm : Imm} {s : State}
    (h : Config.dmemWords ≤ (effectiveAddress rs imm s).toNat) :
    exec (.sw rt rs imm) s = .next (s.raiseOutOfBounds (effectiveAddress rs imm s) .sw) :=
  if_neg fun hi => by have := (inDataMemory_iff _).mp hi; omega

/-! ## Everything `exec` can do -/

/-- The nominal target a control transfer writes to `pc` in state `s`, if it writes one (R88). -/
def transferTarget (s : State) : Instr → Option Pc
  | .beq rs rt imm => if s.readReg rs = s.readReg rt then some (branchTarget imm s) else none
  | .bne rs rt imm => if s.readReg rs ≠ s.readReg rt then some (branchTarget imm s) else none
  | .j target | .jal target => some (jumpTarget target)
  | .halt | .nop | .add _ _ _ _ | .and _ _ _ _ | .nor _ _ _ _ | .or _ _ _ _ | .slt _ _ _ _ | .sub _ _ _ _ => none
  | .sll _ _ _ _ | .sra _ _ _ _ | .srl _ _ _ _ | .addi _ _ _ | .andi _ _ _ | .ori _ _ _ => none
  | .lw _ _ _ | .sw _ _ _ => none

/-- The effects of an instruction, each with the instructions that have it. -/
inductive Effect (s : State) : Instr → State → Prop where
  /-- RunFlag is cleared: `halt`. -/
  | halt : Effect s .halt s.clearRunFlag
  /-- Nothing changes: `nop` and a branch not taken. -/
  | none {i : Instr} (hd : destination i = Option.none) (ht : transferTarget s i = Option.none) (hh : i ≠ .halt) :
      Effect s i s
  /-- One register is written. -/
  | reg {i : Instr} {r : Reg} (v : Word) (hd : destination i = some r) (ht : transferTarget s i = Option.none) :
      Effect s i (s.writeReg r v)
  /-- One data word is written: `sw` inside data memory. -/
  | data {rt rs : Reg} {imm : Imm} (h : (effectiveAddress rs imm s).toNat < Config.dmemWords) :
      Effect s (.sw rt rs imm) (s.writeData (effectiveAddress rs imm s).toNat (s.readReg rt))
  /-- FAULT_OOB: `lw` or `sw` outside data memory. -/
  | outOfBounds {op : AccessOp} {rt rs : Reg} {imm : Imm} (h : Config.dmemWords ≤ (effectiveAddress rs imm s).toNat) :
      Effect s (op.instr rt rs imm) (s.raiseOutOfBounds (effectiveAddress rs imm s) op)
  /-- `pc` is written: a taken branch or `j`. -/
  | pc {i : Instr} {t : Pc} (hd : destination i = Option.none) (ht : transferTarget s i = some t) :
      Effect s i (s.setPc t)
  /-- `pc` and the link register are written: `jal`. -/
  | link (target : Target) :
      Effect s (.jal target) ((s.writeReg Config.linkReg (linkValue s)).setPc (jumpTarget target))

/-- Every instruction answers a next state, by one of the listed effects. -/
theorem exec_effect (i : Instr) (s : State) : ∃ t, exec i s = .next t ∧ Effect s i t := by
  cases i with
  | halt => exact ⟨_, rfl, .halt⟩
  | nop => exact ⟨_, rfl, .none rfl rfl (by simp)⟩
  | add | and | nor | or | slt | sub | sll | sra | srl | addi | andi | ori => exact ⟨_, rfl, .reg _ rfl rfl⟩
  | lw rt rs imm =>
    by_cases h : (effectiveAddress rs imm s).toNat < Config.dmemWords
    · exact ⟨_, exec_lw_inside h, .reg _ rfl rfl⟩
    · exact ⟨_, exec_lw_outside (by omega), .outOfBounds (op := .lw) (by omega)⟩
  | sw rt rs imm =>
    by_cases h : (effectiveAddress rs imm s).toNat < Config.dmemWords
    · exact ⟨_, exec_sw_inside h, .data h⟩
    · exact ⟨_, exec_sw_outside (by omega), .outOfBounds (op := .sw) (by omega)⟩
  | beq rs rt imm =>
    refine ⟨_, rfl, ?_⟩
    split
    · next h => exact .pc rfl (if_pos h)
    · next h => exact .none rfl (if_neg h) (by simp)
  | bne rs rt imm =>
    refine ⟨_, rfl, ?_⟩
    split
    · next h => exact .pc rfl (if_pos h)
    · next h => exact .none rfl (if_neg h) (by simp)
  | j target => exact ⟨_, rfl, .pc rfl rfl⟩
  | jal target => exact ⟨_, rfl, .link target⟩

/-- What `exec` answers, read backward: if it answers `t`, then `t` is one of the listed effects. -/
theorem effect_of_exec {i : Instr} {s t : State} (h : exec i s = .next t) : Effect s i t := by
  obtain ⟨t', h', he⟩ := exec_effect i s
  rw [h'] at h
  cases h
  exact he

/-- The value a transfer writes to `pc` stays small when the branch itself is inside instruction memory. -/
theorem transferTarget_le {s : State} {i : Instr} {t : Pc} (hp : s.pc.toNat < Config.imemWords)
    (h : transferTarget s i = some t) : t.toNat ≤ 2 ^ 26 - 1 := by
  have hp : s.pc.toNat < 4096 := hp
  unfold transferTarget at h
  split at h <;> try cases h
  all_goals try (split at h <;> cases h)
  · next rs rt imm _ => have := imm_lt imm; rw [branchTarget_toNat]; omega
  · next rs rt imm _ => have := imm_lt imm; rw [branchTarget_toNat]; omega
  · next target => have := target_lt target; rw [jumpTarget_toNat]; omega
  · next target => have := target_lt target; rw [jumpTarget_toNat]; omega

end Sys2Proof.Machine
end

