-- ==== Sys2Proof/Laws/PerInstr.lean ====
section
/-! SUPPORT. Statements made once per instruction. Family TableRow: the instruction's word matches its row of the opcode
table, whatever its operands. -/

namespace Sys2Proof.Laws

/-- The word of `i` has the match bits of `i`'s row under the row's mask. -/
def TableRow.Statement (i : Instr) : Prop := encode i &&& i.tableMask = i.tableMatch

/-- An R-type word under the opcode and funct mask is its funct. -/
theorem encodeR_row (rs rt rd : Reg) (shamt : Shamt) (funct : BitVec 6) :
    encodeR rs rt rd shamt funct &&& 0xFC00003F = funct.setWidth Config.xlen := by
  have hs := reg_lt rs
  have ht := reg_lt rt
  have hd := reg_lt rd
  have ha := shamt.isLt
  have hf := funct.isLt
  apply BitVec.eq_of_toNat_eq
  rw [and_functMask, encodeR_toNat, BitVec.toNat_setWidth, two_pow_xlen]
  omega

/-- An I-type word under the opcode mask is its shifted opcode. -/
theorem encodeI_row (opcode : BitVec 6) (rs rt : Reg) (imm : Imm) :
    (encodeI opcode rs rt imm &&& 0xFC000000).toNat = opcode.toNat * 2 ^ 26 := by
  have hs := reg_lt rs
  have ht := reg_lt rt
  have hi := imm_lt imm
  rw [and_opcodeMask, encodeI_toNat]
  omega

/-- A J-type word under the opcode mask is its shifted opcode. -/
theorem encodeJ_row (opcode : BitVec 6) (target : Target) :
    (encodeJ opcode target &&& 0xFC000000).toNat = opcode.toNat * 2 ^ 26 := by
  have ht := target_lt target
  rw [and_opcodeMask, encodeJ_toNat]
  omega

theorem TableRow.halt : TableRow.Statement .halt := rfl
theorem TableRow.nop : TableRow.Statement .nop := rfl
theorem TableRow.add (rd rs rt : Reg) (shamt : Shamt) : TableRow.Statement (.add rd rs rt shamt) := encodeR_row ..
theorem TableRow.and (rd rs rt : Reg) (shamt : Shamt) : TableRow.Statement (.and rd rs rt shamt) := encodeR_row ..
theorem TableRow.nor (rd rs rt : Reg) (shamt : Shamt) : TableRow.Statement (.nor rd rs rt shamt) := encodeR_row ..
theorem TableRow.or (rd rs rt : Reg) (shamt : Shamt) : TableRow.Statement (.or rd rs rt shamt) := encodeR_row ..
theorem TableRow.slt (rd rs rt : Reg) (shamt : Shamt) : TableRow.Statement (.slt rd rs rt shamt) := encodeR_row ..
theorem TableRow.sll (rd rt : Reg) (shamt : Shamt) (rs : Reg) : TableRow.Statement (.sll rd rt shamt rs) := encodeR_row ..
theorem TableRow.sra (rd rt : Reg) (shamt : Shamt) (rs : Reg) : TableRow.Statement (.sra rd rt shamt rs) := encodeR_row ..
theorem TableRow.srl (rd rt : Reg) (shamt : Shamt) (rs : Reg) : TableRow.Statement (.srl rd rt shamt rs) := encodeR_row ..
theorem TableRow.sub (rd rs rt : Reg) (shamt : Shamt) : TableRow.Statement (.sub rd rs rt shamt) := encodeR_row ..
theorem TableRow.addi (rt rs : Reg) (imm : Imm) : TableRow.Statement (.addi rt rs imm) :=
  BitVec.eq_of_toNat_eq (encodeI_row ..)
theorem TableRow.andi (rt rs : Reg) (imm : Imm) : TableRow.Statement (.andi rt rs imm) :=
  BitVec.eq_of_toNat_eq (encodeI_row ..)
theorem TableRow.ori (rt rs : Reg) (imm : Imm) : TableRow.Statement (.ori rt rs imm) :=
  BitVec.eq_of_toNat_eq (encodeI_row ..)
theorem TableRow.lw (rt rs : Reg) (imm : Imm) : TableRow.Statement (.lw rt rs imm) :=
  BitVec.eq_of_toNat_eq (encodeI_row ..)
theorem TableRow.sw (rt rs : Reg) (imm : Imm) : TableRow.Statement (.sw rt rs imm) :=
  BitVec.eq_of_toNat_eq (encodeI_row ..)
theorem TableRow.beq (rs rt : Reg) (imm : Imm) : TableRow.Statement (.beq rs rt imm) :=
  BitVec.eq_of_toNat_eq (encodeI_row ..)
theorem TableRow.bne (rs rt : Reg) (imm : Imm) : TableRow.Statement (.bne rs rt imm) :=
  BitVec.eq_of_toNat_eq (encodeI_row ..)
theorem TableRow.j (target : Target) : TableRow.Statement (.j target) := BitVec.eq_of_toNat_eq (encodeJ_row ..)
theorem TableRow.jal (target : Target) : TableRow.Statement (.jal target) := BitVec.eq_of_toNat_eq (encodeJ_row ..)

end Sys2Proof.Laws
end

