-- ==== Sys2Proof/Laws/Port.lean ====
section
/-! SUPPORT. What the host port names, the host's window for writes, and one line of a load. -/

namespace Sys2Proof.Machine

/-- `host_sel = 0` names a word of instruction memory for every 12-bit address. -/
theorem hostWord_instruction (addr : BitVec 12) : hostWord 0 addr = some (.memory .instruction, addr.toNat) :=
  if_pos addr.isLt

/-- `host_sel = 1` names a word of data memory below 1024. -/
theorem hostWord_data {addr : BitVec 12} (h : addr.toNat < Config.dmemWords) :
    hostWord 1 addr = some (.memory .data, addr.toNat) := if_pos h

/-- `host_sel = 2` names a register below 32. -/
theorem hostWord_registers {addr : BitVec 12} (h : addr.toNat < Config.nregs) :
    hostWord 2 addr = some (.registers, addr.toNat) := if_pos h

/-- `host_sel = 3` names nothing. -/
theorem hostWord_none (addr : BitVec 12) : hostWord 3 addr = none := rfl

/-! ## The host's window (R108, R110): what the host writes does not close it -/

theorem beforeFirstStep_iff (s : State) : s.beforeFirstStep = true ↔ s.status = .running ∧ s.pc = 0 := by
  simp [State.beforeFirstStep]

@[simp] theorem beforeFirstStep_reset : State.reset.beforeFirstStep = true := rfl
@[simp] theorem beforeFirstStep_writeReg (s : State) (r : Reg) (v : Word) :
    (s.writeReg r v).beforeFirstStep = s.beforeFirstStep := rfl
@[simp] theorem beforeFirstStep_writeSpace (s : State) (space : Space) (i : Nat) (v : Word) :
    (s.writeSpace space i v).beforeFirstStep = s.beforeFirstStep := by cases space <;> rfl
@[simp] theorem beforeFirstStep_pokeHost (s : State) (t : HostTarget) (i : Nat) (v : Word) :
    (s.pokeHost t i v).beforeFirstStep = s.beforeFirstStep := by
  cases t
  · exact beforeFirstStep_writeSpace s _ i v
  · rfl
@[simp] theorem beforeFirstStep_presetRegs (presets : List (Reg × Word)) :
    ∀ s : State, (presetRegs presets s).beforeFirstStep = s.beforeFirstStep := by
  induction presets with
  | nil => exact fun _ => rfl
  | cons p rest ih => exact fun s => ih (s.writeReg p.1 p.2)

/-- A stopped core is outside the window (R104). -/
theorem beforeFirstStep_of_stopped {s : State} (h : Stopped s) : s.beforeFirstStep = false := by
  simp [State.beforeFirstStep, show s.status ≠ .running from h]

@[simp] theorem hostMayWrite_run (s : State) : hostMayWrite true s = false := rfl
@[simp] theorem hostMayWrite_not_run (s : State) : hostMayWrite false s = s.beforeFirstStep := rfl

/-- The window is closed with `run = 1` and once a step has been taken or the core has stopped. -/
theorem hostMayWrite_outside {run : Bool} {s : State} (h : run = true ∨ s.beforeFirstStep = false) :
    hostMayWrite run s = false := by
  rcases h with rfl | h
  · rfl
  · simp [hostMayWrite, h]

/-- Outside the window a host write changes nothing. -/
theorem hostWrite_outside {run : Bool} {s : State} (h : hostMayWrite run s = false) (sel : BitVec 2) (addr : BitVec 12)
    (v : Word) : hostWrite run sel addr v s = .next s := by simp [hostWrite, h]

/-- In the window a host write of a word that exists writes it and nothing else. -/
theorem hostWrite_inside {s : State} (h : s.beforeFirstStep = true) {sel : BitVec 2} {addr : BitVec 12} {t : HostTarget}
    {i : Nat} (hw : hostWord sel addr = some (t, i)) (v : Word) :
    hostWrite false sel addr v s = .next (s.pokeHost t i v) := by simp [hostWrite, h, hw]

/-- Outside the window a load writes nothing. -/
theorem hostLoad_outside {run : Bool} {s : State} (h : hostMayWrite run s = false) (space : Space)
    (ls : List (Option Nat)) : hostLoad run space ls s = .next s := by simp [hostLoad, h]

/-- In the window a load takes its lines from index 0 upward. -/
theorem hostLoad_inside {s : State} (h : s.beforeFirstStep = true) (space : Space) (ls : List (Option Nat)) :
    hostLoad false space ls s = loadLines space 0 ls s := by simp [hostLoad, h]

/-- In the window the presets are written. -/
theorem hostPreset_inside {s : State} (h : s.beforeFirstStep = true) (presets : List (Reg × Word)) :
    hostPreset false presets s = presetRegs presets s := by simp [hostPreset, h]

/-- Whatever lines it takes, a load leaves the window as it is. -/
theorem beforeFirstStep_loadLines {space : Space} {ls : List (Option Nat)} :
    ∀ {i : Nat} {s t : State}, loadLines space i ls s = .next t → t.beforeFirstStep = s.beforeFirstStep := by
  induction ls with
  | nil =>
    intro i s t h
    cases h
    rfl
  | cons l rest ih =>
    intro i s t h
    unfold loadLines at h
    split at h
    · cases h
    · split at h
      · cases h
      · split at h
        · simpa using ih h
        · cases h

/-! ## A load, line by line (R108) -/

/-- A word of a load line is written, and the load goes on. -/
theorem loadLines_word {space : Space} {i : Nat} (h : i < space.words) (w : Word) (rest : List (Option Nat)) (s : State) :
    loadLines space i (some w.toNat :: rest) s = loadLines space (i + 1) rest (s.writeSpace space i w) := by
  have hw : w.toNat < 2 ^ Config.xlen := w.isLt
  have hb : BitVec.ofNat Config.xlen w.toNat = w := by simp
  simp only [loadLines]
  rw [if_neg (by omega), if_pos hw, hb]

/-- A line beyond the capacity refuses the load. -/
theorem loadLines_full {space : Space} {i : Nat} (h : space.words ≤ i) (l : Option Nat) (rest : List (Option Nat))
    (s : State) : loadLines space i (l :: rest) s = .refused (.capacityExceeded space) := by
  simp only [loadLines]
  rw [if_pos h]

/-- A line that is no word refuses the load. -/
theorem loadLines_bad {space : Space} {i : Nat} (h : i < space.words) {l : Option Nat}
    (hl : ∀ v, l = some v → 2 ^ 32 ≤ v) (rest : List (Option Nat)) (s : State) :
    loadLines space i (l :: rest) s = .refused (.malformedInput i) := by
  cases l with
  | none =>
    simp only [loadLines]
    rw [if_neg (by omega)]
  | some v =>
    have hv : ¬v < 2 ^ Config.xlen := Nat.not_lt.mpr (hl v rfl)
    simp only [loadLines]
    rw [if_neg (by omega), if_neg hv]

theorem peekHost_writeSpace_same {s : State} (hi : Memory.wf Config.imemWords s.imem)
    (hd : Memory.wf Config.dmemWords s.dmem) (space : Space) (i : Nat) (v : Word) :
    (s.writeSpace space i v).peekHost (.memory space) i = v := by
  cases space
  · exact readInstr_writeInstr_same hi i v
  · exact readData_writeData_same hd i v

theorem peekHost_writeSpace_ne (s : State) (space : Space) {i k : Nat} (v : Word) (h : k ≠ i) :
    (s.writeSpace space i v).peekHost (.memory space) k = s.peekHost (.memory space) k := by
  cases space
  · exact readInstr_writeInstr_ne s v h
  · exact readData_writeData_ne s v h

end Sys2Proof.Machine
end

