-- ==== Sys2Proof/Laws/Step.lean ====
section
/-! SUPPORT. What `step` answers, case by case, and the one inversion lemma for it. -/

namespace Sys2Proof.Machine

theorem steps_iff (s : State) : Steps s ↔ s.status = .running ∧ stopStatus s.runFlag s.pc = .running := by
  rw [stopStatus_eq_running_iff]
  exact ⟨fun ⟨a, b, c⟩ => ⟨a, b, c⟩, fun ⟨a, b, c⟩ => ⟨a, b, c⟩⟩

theorem fetches_iff (s : State) : fetches s = true ↔ Steps s := by
  rw [steps_iff]; simp [fetches]

/-- A stopped core. -/
theorem step_stopped {s : State} (h : Stopped s) : step s = .next s := if_neg h

/-- A core whose status is RUNNING although the loop's test fails: the status is settled. -/
theorem step_settles {s : State} (hr : s.status = .running) (h : stopStatus s.runFlag s.pc ≠ .running) :
    step s = .next (s.setStatus (stopStatus s.runFlag s.pc)) := by
  rw [step, if_pos hr, if_neg h]

/-- A fetched word that decodes. -/
theorem step_decoded {s : State} {i : Instr} (h : RunsInstr s i) : step s = mapNext State.finishStep (exec i s) := by
  obtain ⟨hr, hs⟩ := (steps_iff s).mp h.toSteps
  have hd : decode s.fetch (s.readReg Config.haltReg) = .ok i := h.decoded
  rw [step, if_pos hr, if_pos hs]
  simp only [hd]

/-- A fetched word that does not. -/
theorem step_unsupported {s : State} (h : RunsUnsupported s) :
    step s = .next (s.logUnsupported (s.readInstr s.pc.toNat)).finishStep := by
  obtain ⟨hr, hs⟩ := (steps_iff s).mp h.toSteps
  obtain ⟨e, he⟩ := h.decoded
  have hd : decode s.fetch (s.readReg Config.haltReg) = .error e := he
  rw [step, if_pos hr, if_pos hs]
  simp only [hd]
  rfl

/-- A core that steps runs an instruction or an unsupported word. -/
theorem steps_decodes {s : State} (h : Steps s) : (∃ i, RunsInstr s i) ∨ RunsUnsupported s := by
  cases hd : decode (s.readInstr s.pc.toNat) (s.readReg Config.haltReg) with
  | ok i => exact .inl ⟨i, ⟨h, hd⟩⟩
  | error e => exact .inr ⟨h, ⟨e, hd⟩⟩

/-- The instruction a step runs is determined by the state. -/
theorem runsInstr_unique {s : State} {i j : Instr} (hi : RunsInstr s i) (hj : RunsInstr s j) : i = j := by
  have h := hi.decoded.symm.trans hj.decoded
  injection h

theorem not_runsInstr_of_unsupported {s : State} {i : Instr} (h : RunsUnsupported s) : ¬RunsInstr s i := by
  intro hi
  obtain ⟨e, he⟩ := h.decoded
  rw [hi.decoded] at he
  cases he

/-- Everything a step can do. -/
inductive StepCase (s : State) : State → Prop where
  /-- The core has stopped. -/
  | stopped (h : Stopped s) : StepCase s s
  /-- The status is settled without a fetch. -/
  | settled (hr : s.status = .running) (h : stopStatus s.runFlag s.pc ≠ .running) :
      StepCase s (s.setStatus (stopStatus s.runFlag s.pc))
  /-- An instruction ran. -/
  | ran {i : Instr} {t : State} (h : RunsInstr s i) (he : Effect s i t) : StepCase s t.finishStep
  /-- An unsupported word was logged. -/
  | logged (h : RunsUnsupported s) : StepCase s (s.logUnsupported (s.readInstr s.pc.toNat)).finishStep

/-- Every step answers a next state, by one of the listed cases. -/
theorem step_stepCase (s : State) : ∃ t, step s = .next t ∧ StepCase s t := by
  by_cases hr : s.status = .running
  · by_cases hs : stopStatus s.runFlag s.pc = .running
    · rcases steps_decodes ((steps_iff s).mpr ⟨hr, hs⟩) with ⟨i, hi⟩ | hu
      · obtain ⟨t, ht, he⟩ := exec_effect i s
        exact ⟨_, by rw [step_decoded hi, ht]; rfl, .ran hi he⟩
      · exact ⟨_, step_unsupported hu, .logged hu⟩
    · exact ⟨_, step_settles hr hs, .settled hr hs⟩
  · exact ⟨s, step_stopped hr, .stopped hr⟩

/-- What `step` answers, read backward. -/
theorem stepCase_of_step {s t : State} (h : step s = .next t) : StepCase s t := by
  obtain ⟨t', h', hc⟩ := step_stepCase s
  rw [h'] at h
  cases h
  exact hc

end Sys2Proof.Machine
end

