-- ==== Sys2Proof/Laws/Run.lean ====
section
/-! SUPPORT. Runs of `core`, one step at a time, and the induction over a run, packaged once. -/

namespace Sys2Proof.Machine

theorem run_zero (s : State) : core.run 0 s = .next s := rfl

theorem run_succ {s t : State} (h : step s = .next t) (k : Nat) : core.run (k + 1) s = core.run k t := by
  have h' : core.step s = .next t := h
  simp only [Host.Core.run, h']

/-- What every step keeps, every run keeps. -/
theorem run_keeps {P : State → Prop} (hstep : ∀ s t, P s → step s = .next t → P t) :
    ∀ (k : Nat) {s t : State}, P s → core.run k s = .next t → P t := by
  intro k
  induction k with
  | zero =>
    intro s t hs h
    rw [run_zero] at h
    cases h
    exact hs
  | succ k ih =>
    intro s t hs h
    obtain ⟨u, hu, -⟩ := step_stepCase s
    rw [run_succ hu] at h
    exact ih (hstep s u hs hu) h

end Sys2Proof.Machine
end

