-- ==== Sys2Proof/Machine/Asm.lean ====
section
/-! DEFINITION. The register display names (R15) and the assembler spelling of an instruction (R66): a notation for
words, with no effect on any step. -/

namespace Sys2Proof.Machine

/-- The display name of a register (R15). Only `$v0` for register 2 is the source's own; the others are the conventional
MIPS names (D19, GK1). -/
def regName (r : Reg) : String :=
  ["$zero", "$at", "$v0", "$v1", "$a0", "$a1", "$a2", "$a3",
    "$t0", "$t1", "$t2", "$t3", "$t4", "$t5", "$t6", "$t7",
    "$s0", "$s1", "$s2", "$s3", "$s4", "$s5", "$s6", "$s7",
    "$t8", "$t9", "$k0", "$k1", "$gp", "$sp", "$fp", "$ra"].getD r.val ("$" ++ toString r.val)

/-- `op a, b, c`. -/
def asm3 (op a b c : String) : String := op ++ " " ++ a ++ ", " ++ b ++ ", " ++ c

/-- The R-type ALU spelling `op rd, rs, rt`. -/
def asmReg (op : String) (rd rs rt : Reg) : String := asm3 op (regName rd) (regName rs) (regName rt)

/-- The shift spelling `op rd, rt, shamt`. -/
def asmShift (op : String) (rd rt : Reg) (shamt : Shamt) : String := asm3 op (regName rd) (regName rt) (toString shamt.val)

/-- The I-type ALU spelling `op rt, rs, imm` and the branch spelling `op rs, rt, imm`; `imm` is the raw field. -/
def asmImm (op : String) (a b : Reg) (imm : Imm) : String := asm3 op (regName a) (regName b) (toString imm.toNat)

/-- The memory spelling `op rt, imm(rs)`. -/
def asmMem (op : String) (rt rs : Reg) (imm : Imm) : String :=
  op ++ " " ++ regName rt ++ ", " ++ toString imm.toNat ++ "(" ++ regName rs ++ ")"

/-- The assembler text of an instruction (R66). There are no labels and no pseudo-instructions (R67). -/
def asmText : Instr → String
  | .halt => "halt"
  | .nop => "nop"
  | .add rd rs rt _ => asmReg "add" rd rs rt
  | .and rd rs rt _ => asmReg "and" rd rs rt
  | .nor rd rs rt _ => asmReg "nor" rd rs rt
  | .or rd rs rt _ => asmReg "or" rd rs rt
  | .slt rd rs rt _ => asmReg "slt" rd rs rt
  | .sll rd rt shamt _ => asmShift "sll" rd rt shamt
  | .sra rd rt shamt _ => asmShift "sra" rd rt shamt
  | .srl rd rt shamt _ => asmShift "srl" rd rt shamt
  | .sub rd rs rt _ => asmReg "sub" rd rs rt
  | .addi rt rs imm => asmImm "addi" rt rs imm
  | .andi rt rs imm => asmImm "andi" rt rs imm
  | .ori rt rs imm => asmImm "ori" rt rs imm
  | .lw rt rs imm => asmMem "lw" rt rs imm
  | .sw rt rs imm => asmMem "sw" rt rs imm
  | .beq rs rt imm => asmImm "beq" rs rt imm
  | .bne rs rt imm => asmImm "bne" rs rt imm
  | .j target => "j " ++ toString target.toNat
  | .jal target => "jal " ++ toString target.toNat

end Sys2Proof.Machine
end

