-- ==== Sys2Proof/Tests/Slice0.lean ====
section
/-! SUPPORT. The model's own tests: the WellFormed smoke test, words written out from the spec's encodings, one step on
the vectors of spec/95_test_vectors.md, and a witness for the hypotheses of every statement that has some. -/

namespace Sys2Proof.Tests

open Sys2Proof.Machine Sys2Proof.Claims

/-! ## WellFormed -/

/-- `sll $0, $0, 0` with `rs = 0` has no word of its own: its word is NOP's (R61, R68). -/
theorem test_wf_refuses_sll_zero : (Instr.sll 0 0 0 0).wf = false := by decide

/-- The word 0x03E00000 is `sll`, not NOP (R61). -/
theorem test_wf_accepts_sll_with_rs : (Instr.sll 0 0 0 31).wf = true ∧ encode (.sll 0 0 0 31) = 0x03E00000 := by decide

/-! ## Decoding, one word per row of the table, written out field by field: opcode, rs, rt, rd, shamt, funct (R51) -/

theorem test_decode_halt : decode 0b000000_00000_00000_00000_00000_001100 10 = .ok .halt := by decide
theorem test_decode_halt_word_unsupported : decode 0x0000000C 9 = .error (.funct 12) := by decide
theorem test_decode_nop : decode 0b000000_00000_00000_00000_00000_000000 10 = .ok .nop := by decide
theorem test_decode_add : decode 0b000000_01000_01001_01010_11111_100000 0 = .ok (.add 10 8 9 31) := by decide
theorem test_decode_and : decode 0b000000_01000_01001_01010_00000_100100 0 = .ok (.and 10 8 9 0) := by decide
theorem test_decode_nor : decode 0b000000_01000_01001_01010_00000_100111 0 = .ok (.nor 10 8 9 0) := by decide
theorem test_decode_or : decode 0b000000_01000_01001_01010_00000_100101 0 = .ok (.or 10 8 9 0) := by decide
theorem test_decode_slt : decode 0b000000_01000_01001_01010_00000_101010 0 = .ok (.slt 10 8 9 0) := by decide
theorem test_decode_sll : decode 0b000000_01000_01001_01010_00001_000000 0 = .ok (.sll 10 9 1 8) := by decide
theorem test_decode_sra : decode 0b000000_00000_01001_01010_00100_000011 0 = .ok (.sra 10 9 4 0) := by decide
theorem test_decode_srl : decode 0b000000_00000_01001_01010_11100_000010 0 = .ok (.srl 10 9 28 0) := by decide
theorem test_decode_sub : decode 0b000000_01000_01001_01010_00000_100010 0 = .ok (.sub 10 8 9 0) := by decide
theorem test_decode_addi : decode 0b001000_10000_01000_1111111111111111 0 = .ok (.addi 8 16 0xFFFF) := by decide
theorem test_decode_andi : decode 0b001100_10000_01000_1000000000000000 0 = .ok (.andi 8 16 0x8000) := by decide
theorem test_decode_ori : decode 0b001101_00000_00010_0000000000001010 0 = .ok (.ori 2 0 10) := by decide
theorem test_decode_lw : decode 0b100011_01001_01010_0000000000010111 0 = .ok (.lw 10 9 23) := by decide
theorem test_decode_sw : decode 0b101011_01001_01000_0000000000000101 0 = .ok (.sw 8 9 5) := by decide
theorem test_decode_beq : decode 0b000100_01000_01001_0000000000000001 0 = .ok (.beq 8 9 1) := by decide
theorem test_decode_bne : decode 0b000101_01000_01001_0000000000000010 0 = .ok (.bne 8 9 2) := by decide
theorem test_decode_j : decode 0b000010_00000000000000111111111110 0 = .ok (.j 4094) := by decide
theorem test_decode_jal : decode 0b000011_11111111111111111111111111 0 = .ok (.jal 0x3FFFFFF) := by decide
theorem test_decode_opcode_10 : decode 0x2908000A 0 = .error (.opcode 10) := by decide
theorem test_decode_funct_10 : decode 0x0109500A 0 = .error (.funct 10) := by decide
theorem test_decodeTableWord_halt : decodeTableWord 32 0x0000000C = some .halt := by decide

/-! ## One step, on the vectors of spec/95_test_vectors.md -/

/-- The state after reset, with a program counter, register values and a word placed at `pc`. -/
def start (pc : Pc) (regs : List (Reg × Word)) (w : Word) : State :=
  (presetRegs regs (State.reset.setPc pc)).writeInstr pc.toNat w

/-- The next step of `s` answers a state that `p` holds of. -/
def after (s : State) (p : State → Bool) : Bool :=
  match step s with
  | .next t => p t
  | .fault _ | .refused _ => false

/-- V-S4: halt at index 4095. -/
theorem test_step_halt : after (start 4095 [(2, 10)] 0x0000000C) (fun t =>
    t.status = .halted ∧ t.pc = 4096 ∧ t.runFlag = false) = true := by decide

/-- V-S2: the halt word with x[2] = 0 is logged. -/
theorem test_step_halt_word_logged : after (start 5 [] 0x0000000C) (fun t =>
    t.log = [⟨5, 0x0000000C⟩] ∧ t.pc = 6 ∧ t.status = .running) = true := by decide

/-- V-S6: a NOP at index 4095 runs off the end. -/
theorem test_step_nop : after (start 4095 [] 0) (fun t =>
    t.pc = 4096 ∧ t.status = .neverTerminated ∧ t.runFlag = true) = true := by decide

/-- V-R2. -/
theorem test_step_add_wraps : after (start 0 [(8, 0xFFFFFFFF), (9, 1), (10, 7)] 0x01095020) (fun t =>
    t.readReg 10 = 0 ∧ t.pc = 1) = true := by decide

/-- V-R29: register 0 is not hardwired. -/
theorem test_step_add_writes_register_zero : after (start 0 [(8, 1), (9, 2)] 0x01090020) (fun t =>
    t.readReg 0 = 3) = true := by decide

/-- V-R6. -/
theorem test_step_and : after (start 0 [(8, 0xF0F0F0F0), (9, 0x0FF00FF0)] 0x01095024) (fun t =>
    t.readReg 10 = 0x00F000F0) = true := by decide

/-- V-R10. -/
theorem test_step_nor : after (start 0 [(8, 0x0000FFFF), (9, 0x00FF0000)] 0x01095027) (fun t =>
    t.readReg 10 = 0xFF000000) = true := by decide

/-- V-R8. -/
theorem test_step_or : after (start 0 [(8, 0x12340000), (9, 0x00005678)] 0x01095025) (fun t =>
    t.readReg 10 = 0x12345678) = true := by decide

/-- V-R23: the comparison is unsigned. -/
theorem test_step_slt_unsigned : after (start 0 [(8, 0xFFFFFFFF), (9, 1), (10, 7)] 0x0109502A) (fun t =>
    t.readReg 10 = 0) = true := by decide

/-- V-R21. -/
theorem test_step_slt_less : after (start 0 [(8, 3), (9, 7)] 0x0109502A) (fun t => t.readReg 10 = 1) = true := by decide

/-- V-R16: `rs` is ignored. -/
theorem test_step_sll : after (start 0 [(8, 0xFFFFFFFF), (9, 1)] 0x01095040) (fun t => t.readReg 10 = 2) = true := by
  decide

/-- V-R17: the shift is logical. -/
theorem test_step_sra_logical : after (start 0 [(9, 0x80000000)] 0x00095103) (fun t =>
    t.readReg 10 = 0x08000000) = true := by decide

/-- V-R19. -/
theorem test_step_srl : after (start 0 [(9, 0xF0000000)] 0x00095702) (fun t => t.readReg 10 = 0xF) = true := by decide

/-- V-R24. -/
theorem test_step_sub : after (start 0 [(8, 3), (9, 5)] 0x01095022) (fun t => t.readReg 10 = 0xFFFFFFFE) = true := by
  decide

/-- V-I2: adds 65535, not -1. -/
theorem test_step_addi : after (start 0 [(16, 1)] 0x2208FFFF) (fun t => t.readReg 8 = 0x00010000) = true := by decide

/-- E6: masks fully. -/
theorem test_step_andi : after (start 0 [(16, 0xDEADBEEF)] 0x3208FFFF) (fun t => t.readReg 8 = 0xBEEF) = true := by
  decide

/-- V-I8. -/
theorem test_step_ori : after (start 0 [(16, 0x12340000)] 0x3608FFFF) (fun t => t.readReg 8 = 0x1234FFFF) = true := by
  decide

/-- V-M6: the effective address wraps to 0. -/
theorem test_step_lw_wraps : after ((start 0 [(9, 0xFFFFFFFF)] 0x8D2A0001).writeData 0 42) (fun t =>
    t.readReg 10 = 42) = true := by decide

/-- V-M4: EA = 1024 faults. -/
theorem test_step_lw_out_of_bounds : after (start 7 [(9, 1000), (10, 5)] 0x8D2A0018) (fun t =>
    t.status = .faultOob 7 1024 .lw ∧ t.pc = 7 ∧ t.readReg 10 = 5 ∧ t.runFlag = true) = true := by decide

/-- E5, its first step. -/
theorem test_step_sw : after (start 0 [(8, 0x12345678), (9, 100)] 0xAD280005) (fun t =>
    t.readData 105 = 0x12345678 ∧ t.pc = 1) = true := by decide

/-- V-M5: EA = 1024 faults and writes no word. -/
theorem test_step_sw_out_of_bounds : after (start 7 [(9, 1001), (10, 5)] 0xAD2A0017) (fun t =>
    t.status = .faultOob 7 1024 .sw ∧ t.pc = 7 ∧ t.dmem = []) = true := by decide

/-- V-C1. -/
theorem test_step_beq_taken : after (start 10 [(8, 7), (9, 7)] 0x11090001) (fun t => t.pc = 15) = true := by decide

/-- V-C4. -/
theorem test_step_beq_past_the_end : after (start 0 [] 0x1000FFFF) (fun t =>
    t.pc = 262141 ∧ t.status = .neverTerminated) = true := by decide

/-- V-C6. -/
theorem test_step_bne_taken : after (start 2 [(8, 1), (9, 2)] 0x15090002) (fun t => t.pc = 11) = true := by decide

/-- V-C7. -/
theorem test_step_bne_not_taken : after (start 2 [(8, 2), (9, 2)] 0x15090002) (fun t => t.pc = 3) = true := by decide

/-- V-C9. -/
theorem test_step_j : after (start 6 [] 0x08000002) (fun t => t.pc = 3) = true := by decide

/-- V-C13. -/
theorem test_step_jal : after (start 100 [] 0x0FFFFFFF) (fun t =>
    t.readReg 31 = 104 ∧ t.pc = 0x4000000 ∧ t.status = .neverTerminated) = true := by decide

/-- V-L1. -/
theorem test_step_unsupported : after (start 0 [] 0xFC000000) (fun t =>
    t.log = [⟨0, 0xFC000000⟩] ∧ t.pc = 1) = true := by decide

/-- V-L3: a stopped core takes no step. -/
theorem test_step_stopped : after ((start 5 [] 0x08000002).setStatus .halted) (fun t =>
    t = (start 5 [] 0x08000002).setStatus .halted) = true := by decide

/-- The halt row's word runs as the first instruction after reset (log entry 2). -/
theorem test_withFetchWord_halt : after (State.reset.withFetchWord 32 0x0000000C) (fun t => t.status = .halted) = true := by
  decide

/-! ## The host port and the notation -/

/-- E7: a load of three words. -/
theorem test_load_three_words : hostLoad false .instruction [some 0x20080005, some 0x20090003, some 0x01095020] State.reset =
    .next { State.reset with imem := [(0, 0x20080005), (1, 0x20090003), (2, 0x01095020)] } := by rfl

theorem test_load_malformed : hostLoad false .data [some 1, some 0x100000000] State.reset = .refused (.malformedInput 1) := by
  rfl

theorem test_host_write_no_word : hostWrite false 3 0 7 State.reset = .fault (.hostPortNoWord 3 0) := by rfl

/-- R104, R108: after a stop, and once a step has been taken, the host port writes nothing. -/
theorem test_host_write_outside_window :
    clkEdge ⟨false, false, 2, true, 5, 7⟩ (State.reset.setStatus .halted) = .next (State.reset.setStatus .halted) ∧
    hostWrite false 1 0 7 (start 1 [] 0) = .next (start 1 [] 0) := ⟨rfl, rfl⟩

theorem test_asm_addi : asmText (.addi 8 0 5) = "addi $t0, $zero, 5" := by decide
theorem test_asm_sw : asmText (.sw 10 0 0) = "sw $t2, 0($zero)" := by decide

/-! ## Witnesses: for every statement with hypotheses, states and operands that meet them -/

/-- A state that steps, from its fields. -/
theorem steps_of {s : State} (h : s.status = .running ∧ s.runFlag = true ∧ s.pc.toNat < Config.imemWords) : Steps s :=
  ⟨h.1, h.2.1, h.2.2⟩

theorem witness_DecodeAfterEncodeIsIdentity :
    (∃ i v, Instr.wf i = true ∧ (i = .halt → v = Config.haltCode) ∧ i = .sll 31 31 31 0 ∧ v = 0) ∧
    (∃ i v, Instr.wf i = true ∧ (i = .halt → v = Config.haltCode) ∧ i = .halt ∧ v = 10) :=
  ⟨⟨_, _, by decide, by decide, rfl, rfl⟩, ⟨_, _, by decide, by decide, rfl, rfl⟩⟩

theorem witness_EncodeAfterDecodeIsIdentity : decode 0x03E00000 0 = .ok (.sll 0 0 0 31) := by decide

theorem witness_UnsupportedExactlyOutsideTheMaps :
    ((0x0000000C : Word) ≠ 0 ∧ ¬((0x0000000C : Word) = 0x0000000C ∧ (9 : Word) = 10)) ∧
    ((0xFC000000 : Word) ≠ 0 ∧ ¬((0xFC000000 : Word) = 0x0000000C ∧ (10 : Word) = 10)) := by decide

theorem witness_HaltWordNeedsTenInRegisterTwo :
    bits 0x0000010C 26 6 = 0 ∧ bits 0x0000010C 0 6 = 12 ∧ ¬((0x0000010C : Word) = 0x0000000C ∧ (10 : Word) = 10) := by
  decide

theorem witness_OpcodeTenAndFunctTenAreUnsupported :
    bits 0x2908000A 26 6 = 10 ∧ bits 0x0109500A 26 6 = 0 ∧ bits 0x0109500A 0 6 = 10 := by decide

theorem witness_DecodedWordMatchesItsTableRow : decode 0x010957E0 0 = .ok (.add 10 8 9 31) := by decide

theorem witness_ResetIsTheConstructionState :
    ∃ (inp : Inputs) (s : State), inp.rst = true ∧ s.status = .halted :=
  ⟨⟨true, true, 0, false, 0, 0⟩, start 0 [] 0 |>.setStatus .halted, rfl, rfl⟩

/-- A state with a loaded word and a preset register meets the invariant. -/
theorem inv_start : Inv (start 0 [(8, 5)] 0x01084020) :=
  ⟨by decide, by decide, by decide, ⟨rfl, by decide⟩, fun _ he => by cases he⟩

theorem witness_StepKeepsTheInvariant : ∃ t, Inv (start 0 [(8, 5)] 0x01084020) ∧ step (start 0 [(8, 5)] 0x01084020) = .next t :=
  ⟨_, inv_start, rfl⟩

theorem witness_EveryReachableStateMeetsTheInvariant :
    ∃ s t, boot [some 0x8C0B0000] [some 8] [(2, 10)] = .next s ∧ core.run 2 s = .next t := ⟨_, _, rfl, rfl⟩

theorem witness_CanonicalMemoriesThatReadAlikeAreEqual :
    Memory.wf 1024 [(0, 5), (1023, 7)] ∧ ∀ i, i < 1024 → Memory.read [(0, 5), (1023, 7)] i = Memory.read [(0, 5), (1023, 7)] i :=
  ⟨by decide, fun _ _ => rfl⟩

theorem witness_LwLoadsTheWordAtItsAddressOrStops :
    (effectiveAddress 9 23 (start 0 [(9, 1000)] 0)).toNat = 1023 ∧
    (effectiveAddress 9 24 (start 0 [(9, 1000)] 0x8D2A0018)).toNat = 1024 ∧
    RunsInstr (start 0 [(9, 1000)] 0x8D2A0018) (.lw 10 9 24) :=
  ⟨by decide, by decide, steps_of (by decide), by decide⟩

theorem witness_SwStoresToTheWordAtItsAddressOrStops :
    Memory.wf Config.dmemWords (start 0 [(9, 1000)] 0).dmem ∧
    (effectiveAddress 9 23 (start 0 [(9, 1000)] 0)).toNat = 1023 ∧
    (effectiveAddress 9 24 (start 0 [(9, 1000)] 0xAD2A0018)).toNat = 1024 ∧
    RunsInstr (start 0 [(9, 1000)] 0xAD2A0018) (.sw 10 9 24) :=
  ⟨by decide, by decide, by decide, steps_of (by decide), by decide⟩

theorem witness_BeqAndBneAddTheShiftedImmediateWhenTaken :
    RunsInstr (start 4095 [] 0x1000FFFF) (.beq 0 0 0xFFFF) ∧ RunsInstr (start 0 [(8, 1)] 0x15090000) (.bne 8 9 0) ∧
    (start 0 [(8, 1)] 0x15090000).readReg 8 ≠ (start 0 [(8, 1)] 0x15090000).readReg 9 :=
  ⟨⟨steps_of (by decide), by decide⟩, ⟨steps_of (by decide), by decide⟩, by decide⟩

theorem witness_JSetsPcToTheTargetAndLandsOnePast : RunsInstr (start 4095 [] 0x0BFFFFFF) (.j 0x3FFFFFF) :=
  ⟨steps_of (by decide), by decide⟩

theorem witness_JalLinksPcPlusFourAndLandsOnePast :
    ∃ t, RunsInstr (start 4095 [] 0x0C000000) (.jal 0) ∧ step (start 4095 [] 0x0C000000) = .next t :=
  ⟨_, ⟨steps_of (by decide), by decide⟩, rfl⟩

theorem witness_HaltClearsRunFlagAndStops :
    (Steps (start 4095 [(2, 10)] 0x0000000C) ∧ (start 4095 [(2, 10)] 0x0000000C).readInstr 4095 = 0x0000000C ∧
      (start 4095 [(2, 10)] 0x0000000C).readReg 2 = 10) ∧
    (Steps (start 0 [(2, 11)] 0x0000000C) ∧ (start 0 [(2, 11)] 0x0000000C).readInstr 0 = 0x0000000C ∧
      (start 0 [(2, 11)] 0x0000000C).readReg 2 ≠ 10) :=
  ⟨⟨steps_of (by decide), by decide⟩, ⟨steps_of (by decide), by decide⟩⟩

theorem witness_NopOnlyAdvancesPc :
    (Steps (start 4095 [] 0) ∧ (start 4095 [] 0).readInstr 4095 = 0) ∧
    (Steps State.reset ∧ ∀ i, 0 ≤ i → i < 4096 → State.reset.readInstr i = 0) :=
  ⟨⟨steps_of (by decide), by decide⟩, steps_of (by decide), fun _ _ _ => rfl⟩

theorem witness_InstructionReadsOnlyItsSources :
    (8 : Reg) ∉ sources (.sll 10 9 1 8) ∧ (10 : Reg) ∉ sources (.lw 10 9 0) ∧ (31 : Reg) ∉ sources (.jal 0) := by decide

theorem witness_StepRunsTheDecodedInstruction :
    (∃ t, RunsInstr (start 7 [(9, 1023)] 0x8D2A0000) (.lw 10 9 0) ∧
      exec (.lw 10 9 0) (start 7 [(9, 1023)] 0x8D2A0000) = .next t ∧ t.status = .running) ∧
    (∃ t, RunsInstr (start 7 [(9, 1024)] 0x8D2A0000) (.lw 10 9 0) ∧
      exec (.lw 10 9 0) (start 7 [(9, 1024)] 0x8D2A0000) = .next t ∧ t.status ≠ .running) :=
  ⟨⟨_, ⟨steps_of (by decide), by decide⟩, rfl, by decide⟩, ⟨_, ⟨steps_of (by decide), by decide⟩, rfl, by decide⟩⟩

theorem unsupported_start : RunsUnsupported (start 4095 [] 0xFC000000) :=
  ⟨steps_of (by decide), ⟨.opcode 63, by decide⟩⟩

theorem witness_UnsupportedWordIsLoggedAndSkipped : RunsUnsupported (start 4095 [] 0xFC000000) := unsupported_start

theorem witness_OutOfBoundsAccessStopsPrecisely :
    (RunsInstr (start 7 [(9, 1000)] 0x8D2A0018) (AccessOp.lw.instr 10 9 24) ∧
      (effectiveAddress 9 24 (start 7 [(9, 1000)] 0x8D2A0018)).toNat = 1024) ∧
    (RunsInstr (start 7 [(9, 0xFFFFFFFF)] 0xAD2A0000) (AccessOp.sw.instr 10 9 0) ∧
      (effectiveAddress 9 0 (start 7 [(9, 0xFFFFFFFF)] 0xAD2A0000)).toNat = 2 ^ 32 - 1) :=
  ⟨⟨⟨steps_of (by decide), by decide⟩, by decide⟩, ⟨⟨steps_of (by decide), by decide⟩, by decide⟩⟩

theorem witness_OtherStepsAdvancePcByOne :
    RunsInstr (start 4095 [] 0x010957E0) (.add 10 8 9 31) ∧
    (RunsInstr (start 0 [(9, 1000)] 0x8D2A0017) (.lw 10 9 23) ∧
      (effectiveAddress 9 23 (start 0 [(9, 1000)] 0x8D2A0017)).toNat = 1023) ∧
    (RunsInstr (start 0 [] 0xAC0A0000) (.sw 10 0 0) ∧ (effectiveAddress 0 0 (start 0 [] 0xAC0A0000)).toNat = 0) :=
  ⟨⟨steps_of (by decide), by decide⟩, ⟨⟨steps_of (by decide), by decide⟩, by decide⟩,
    ⟨⟨steps_of (by decide), by decide⟩, by decide⟩⟩

theorem witness_StepStopsForExactlyTheseReasons :
    ∃ t, Steps (start 4095 [] 0xFC000000) ∧ step (start 4095 [] 0xFC000000) = .next t ∧ t.status = .neverTerminated :=
  ⟨_, unsupported_start.toSteps, rfl, rfl⟩

theorem witness_StoppedCoreNeverChanges :
    Stopped (start 0 [] 0 |>.setStatus .neverTerminated) ∧ (∃ inp : Inputs, inp.rst = true) ∧
    ∃ inp : Inputs, inp.rst = false ∧ inp.hostWe = true :=
  ⟨(fun h => by cases h), ⟨⟨true, false, 0, false, 0, 0⟩, rfl⟩, ⟨false, false, 2, true, 31, 5⟩, rfl, rfl⟩

theorem witness_NoRunWritesInstructionMemory : ∃ t, core.run 2 (start 0 [(8, 7)] 0xAC080000) = .next t := ⟨_, rfl⟩

theorem witness_OnlyAStoreChangesDataMemory :
    ∃ t, Memory.wf Config.dmemWords (start 0 [(8, 7)] 0xAC0803FF).dmem ∧ step (start 0 [(8, 7)] 0xAC0803FF) = .next t ∧
      t.readData 1023 ≠ (start 0 [(8, 7)] 0xAC0803FF).readData 1023 := ⟨_, by decide, rfl, by decide⟩

theorem witness_OnlyTheDestinationRegisterChanges :
    ∃ t, step (start 0 [] 0x0C000000) = .next t ∧ t.readReg 31 ≠ (start 0 [] 0x0C000000).readReg 31 :=
  ⟨_, rfl, by decide⟩

theorem witness_OnlyHaltWritesRunFlag :
    ∃ t, step (start 0 [(2, 10)] 0x0000000C) = .next t ∧ t.runFlag ≠ (start 0 [(2, 10)] 0x0000000C).runFlag :=
  ⟨_, rfl, by decide⟩

theorem witness_LogIsTheSequenceOfUnsupportedEvents :
    ∃ t, step (start 4095 [] 0xFC000000) = .next t ∧ t.log = [⟨4095, 0xFC000000⟩] := ⟨_, rfl, rfl⟩

theorem witness_BackwardTransfersAreJumps :
    ∃ t, RunsInstr (start 5 [] 0x08000004) (.j 4) ∧ step (start 5 [] 0x08000004) = .next t ∧ t.status = .running ∧
      t.pc.toNat ≤ 5 := ⟨_, ⟨steps_of (by decide), by decide⟩, rfl, rfl, by decide⟩

/-- The two words of E5. -/
def storeThenLoad : State := (start 0 [(8, 0x12345678), (9, 100)] 0xAD280005).writeInstr 1 0x8D2A0005

theorem witness_LoadAfterStoreReturnsTheStoredWord :
    Memory.wf Config.dmemWords storeThenLoad.dmem ∧ RunsInstr storeThenLoad (.sw 8 9 5) ∧
    storeThenLoad.pc.toNat + 1 < 4096 ∧
    decode (storeThenLoad.readInstr (storeThenLoad.pc.toNat + 1)) (storeThenLoad.readReg 2) = .ok (.lw 10 9 5) ∧
    (effectiveAddress 9 5 storeThenLoad).toNat < 1024 :=
  ⟨by decide, ⟨steps_of (by decide), by decide⟩, by decide, by decide, by decide⟩

theorem witness_IgnoredFieldsMakeNoDifference :
    Memory.wf Config.imemWords State.reset.imem ∧ Steps State.reset ∧
    (bits 0x01095020 26 6 = 0 ∧ bits 0x01095020 0 6 = 32 ∧
      (0x01095020 : Word) &&& 0xFFFFF83F = (0x010957E0 : Word) &&& 0xFFFFF83F) ∧
    (bits 0x00000000 26 6 = 0 ∧ bits 0x00000000 0 6 = 0 ∧
      (0x00000000 : Word) &&& 0xFC1FFFFF = (0x03E00000 : Word) &&& 0xFC1FFFFF) :=
  ⟨by decide, steps_of (by decide), by decide, by decide⟩

theorem witness_EventLogDoesNotInfluenceTheStep : ∃ t, step (start 4095 [] 0xFC000000) = .next t := ⟨_, rfl⟩

theorem witness_PlacedWordIsTheNextInstruction :
    Memory.wf Config.imemWords State.reset.imem ∧ Steps State.reset ∧ decodeTableWord 32 0x0000000C = some .halt :=
  ⟨by decide, steps_of (by decide), by decide⟩

theorem witness_HostLoadWritesExactlyTheFirstWords :
    (Memory.wf Config.imemWords State.reset.imem ∧ Memory.wf Config.dmemWords State.reset.dmem ∧
      State.reset.beforeFirstStep = true ∧ (List.replicate 1024 (7 : Word)).length ≤ Space.data.words) ∧
    (start 1 [] 0).beforeFirstStep = false ∧ (State.reset.setStatus .halted).beforeFirstStep = false :=
  ⟨⟨by decide, by decide, by decide, by rw [List.length_replicate]⟩, by decide, by decide⟩

theorem witness_HostLoadRefusesMoreThanCapacity :
    State.reset.beforeFirstStep = true ∧ Space.data.words < (List.replicate 1025 (7 : Word)).length :=
  ⟨by decide, by rw [List.length_replicate]; decide⟩

theorem witness_HostLoadRefusesAMalformedLine :
    State.reset.beforeFirstStep = true ∧ ([1, 2] : List Word).length < Space.data.words ∧ (∀ v, (none : Option Nat) = some v → 2 ^ 32 ≤ v) ∧
    (∀ v, some (2 ^ 32) = some v → 2 ^ 32 ≤ v) :=
  by
  refine ⟨by decide, by decide, ?_, ?_⟩
  · intro v h; cases h
  · intro v h; injection h; omega

theorem witness_HostWritesOnlyWhileNotRunning :
    (31 : BitVec 12).toNat < 32 ∧ (1023 : BitVec 12).toNat < 1024 ∧ State.reset.beforeFirstStep = true ∧
    (start 1 [] 0).beforeFirstStep = false ∧ Memory.wf Config.dmemWords State.reset.dmem ∧ Memory.wf Config.imemWords State.reset.imem := by decide

theorem witness_HostReadsOnlyWhileNotRunning :
    State.reset.status = .running ∧ Stopped (State.reset.setStatus .halted) ∧ (1023 : BitVec 12).toNat < 1024 ∧
    (31 : BitVec 12).toNat = (31 : Reg).val := ⟨rfl, (fun h => by cases h), by decide, by decide⟩

theorem witness_ClockEdgeStepsOnlyARunningCore :
    (∃ inp : Inputs, inp.rst = false ∧ inp.run = true ∧ State.reset.status = .running ∧
      Stopped (State.reset.setStatus .halted)) ∧
    (∃ inp : Inputs, inp.rst = false ∧ inp.run = false ∧ inp.hostWe = false) ∧
    (∃ inp : Inputs, inp.rst = false ∧ inp.run = false ∧ inp.hostWe = true ∧
      (State.reset.setStatus .halted).beforeFirstStep = false) :=
  ⟨⟨⟨false, true, 0, true, 0, 0⟩, rfl, rfl, rfl, (fun h => by cases h)⟩, ⟨⟨false, false, 0, false, 0, 0⟩, rfl, rfl, rfl⟩,
    ⟨⟨false, false, 2, true, 31, 5⟩, rfl, rfl, rfl, rfl⟩⟩

theorem witness_NoStepReturnsToTheHostWindow :
    (∃ t, step State.reset = .next t) ∧
    (∃ (inp : Inputs) (t : State), inp.rst = false ∧ (start 1 [] 0).beforeFirstStep = false ∧
      clkEdge inp (start 1 [] 0) = .next t) ∧
    (∃ (inp : Inputs) (t : State), inp.rst = false ∧ inp.run = false ∧ clkEdge inp State.reset = .next t) :=
  ⟨⟨_, rfl⟩, ⟨⟨false, true, 0, false, 0, 0⟩, _, rfl, rfl, rfl⟩, ⟨⟨false, false, 2, true, 31, 5⟩, _, rfl, rfl, rfl⟩⟩

theorem witness_BootPlacesTheProgramTheDataAndThePresets :
    (List.replicate 4096 (7 : Word)).length ≤ 4096 ∧ (List.replicate 1024 (7 : Word)).length ≤ 1024 :=
  ⟨by rw [List.length_replicate], by rw [List.length_replicate]⟩

end Sys2Proof.Tests
end

section
/-! The rows of opcode 0 and the register-register results (spec/41_rtype_alu.md): what a word that matches a row decodes
to, and what `writeRegReg` leaves in the state. -/

namespace Sys2Proof.Proofs

open Sys2Proof.Machine Sys2Proof.Claims

/-! ## Words that match a row of opcode 0 (R58, R59) -/

/-- A match word below 64 fixes the opcode at 0 and is the funct. -/
theorem opcode_funct_of_functRow {w m : Word} (h : w &&& 0xFC00003F = m) (hm : m.toNat < 64) :
    w.toNat / 2 ^ 26 = 0 ∧ (functField w).toNat = m.toNat := by
  have hmask := and_functMask w
  rw [h] at hmask
  rw [functField_toNat]
  omega

/-- Away from NOP and from funct 12, the funct of the halt word, a word of opcode 0 is read by its funct alone. -/
theorem decode_of_functRow {w m : Word} (v : Word) (h : w &&& 0xFC00003F = m) (hm : m.toNat < 64) (h12 : m.toNat ≠ 12)
    (h0 : w ≠ 0) : decode w v = decodeFunct w ∧ (functField w).toNat = m.toNat := by
  obtain ⟨hop, hfn⟩ := opcode_funct_of_functRow h hm
  refine ⟨decode_of_opcode_zero ?_ h0 hop, hfn⟩
  rintro ⟨rfl, -⟩
  exact h12 hfn.symm

/-- An R-type row holds when `decodeFunct` answers the row's instruction on the row's funct. -/
theorem rTypeRow_of_decodeFunct {mk : Reg → Reg → Reg → Shamt → Instr} {m : Word} (hm : m.toNat < 64)
    (h12 : m.toNat ≠ 12) (h0 : m ≠ 0)
    (hd : ∀ w, (functField w).toNat = m.toNat →
      decodeFunct w = .ok (mk (rdField w) (rsField w) (rtField w) (shamtField w))) : RTypeRow mk m := by
  intro w v h
  have hw : w ≠ 0 := by
    rintro rfl
    exact h0 (h.symm.trans BitVec.zero_and)
  obtain ⟨hdec, hfn⟩ := decode_of_functRow v h hm h12 hw
  rw [hdec, hd w hfn]

theorem decodeFunct_slt {w : Word} (h : (functField w).toNat = 42) :
    decodeFunct w = .ok (.slt (rdField w) (rsField w) (rtField w) (shamtField w)) := by
  simp only [decodeFunct, h]

/-! ## Register-register results (R71) -/

theorem readReg_writeRegReg_same (f : Word → Word → Word) (rd rs rt : Reg) (s : State) :
    (writeRegReg f rd rs rt s).readReg rd = f (s.readReg rs) (s.readReg rt) :=
  readReg_writeReg_same ..

theorem onlyReg_writeRegReg (f : Word → Word → Word) (rd rs rt : Reg) (s : State) :
    OnlyReg rd s (writeRegReg f rd rs rt s) :=
  onlyReg_writeReg ..

/-- An instruction whose meaning is `writeRegReg f` has the result that `f` has on numbers. -/
theorem rTypeResult_of_writeRegReg {mk : Reg → Reg → Reg → Shamt → Instr} {f : Word → Word → Word}
    {value : Nat → Nat → Nat}
    (hexec : ∀ rd rs rt shamt s, exec (mk rd rs rt shamt) s = .next (writeRegReg f rd rs rt s))
    (hf : ∀ a b, (f a b).toNat = value a.toNat b.toNat) : RTypeResult mk value := by
  intro rd rs rt shamt s
  refine ⟨_, hexec rd rs rt shamt s, ?_, onlyReg_writeRegReg f rd rs rt s⟩
  rw [readReg_writeRegReg_same, hf]

theorem exec_slt (rd rs rt : Reg) (shamt : Shamt) (s : State) :
    exec (.slt rd rs rt shamt) s =
      .next (writeRegReg (fun a b => if a.toNat < b.toNat then 1 else 0) rd rs rt s) := rfl

/-- Settles O17: funct 42 selects `slt` in the decoder, and its meaning writes the comparison of the two numbers. -/
theorem sltComparesUnsignedValues : Obligations.SltComparesUnsignedValues := by
  constructor
  · exact rTypeRow_of_decodeFunct (by decide) (by decide) (by decide) fun _ => decodeFunct_slt
  · refine rTypeResult_of_writeRegReg exec_slt fun a b => ?_
    split <;> rfl

end Sys2Proof.Proofs
end

section
/-! One step from outside: the fields the loop writes at the end of a step, where a step lands, and what a step changed
read back to the effect of the instruction that it ran (R96 to R100). -/

namespace Sys2Proof.Proofs

open Sys2Proof.Machine Sys2Proof.Claims

/-! ## The loop increment (R98, R100) -/

theorem finishStep_pc_of_running {s : State} (h : s.status = .running) :
    s.finishStep.pc = s.pc + Config.loopIncrement := by
  rw [finishStep_of_running h]

theorem finishStep_status_of_running {s : State} (h : s.status = .running) :
    s.finishStep.status = stopStatus s.runFlag (s.pc + Config.loopIncrement) := by
  rw [finishStep_of_running h]

/-- The increment does not wrap at or below 2^26, the highest index a step can reach (R18, R30). -/
theorem pc_add_loopIncrement_toNat {p : Pc} (h : p.toNat ≤ 2 ^ 26) :
    (p + Config.loopIncrement).toNat = p.toNat + 1 := by
  change (p + 1#32).toNat = _
  have hone : p.toNat + (1#32).toNat < 2 ^ 32 := by
    simp only [BitVec.toNat_ofNat]
    omega
  rw [BitVec.toNat_add_of_lt hone]
  rfl

/-- With RunFlag true the computed status is the one that the statements give to that `pc`. -/
theorem stopStatus_true (p : Pc) : stopStatus true p = statusAt p.toNat := rfl

/-! ## Effects (R16, R22, R47, R88, R102) -/

theorem effect_imem {s t : State} {i : Instr} (h : Effect s i t) : t.imem = s.imem := by cases h <;> rfl

theorem effect_log {s t : State} {i : Instr} (h : Effect s i t) : t.log = s.log := by cases h <;> rfl

/-- Before the loop increment, `pc` is the instruction's own index or a transfer's target. -/
theorem effect_pc_le {s t : State} {i : Instr} (hp : s.pc.toNat < Config.imemWords) (h : Effect s i t) :
    t.pc.toNat ≤ 2 ^ 26 - 1 := by
  have hp' : s.pc.toNat < 4096 := hp
  have hown : s.pc.toNat ≤ 2 ^ 26 - 1 := by omega
  cases h with
  | halt | none | reg | data | outOfBounds => exact hown
  | pc _ ht => exact transferTarget_le hp ht
  | link target => exact transferTarget_le (i := .jal target) hp rfl

/-- The status is an instruction's only to set on an access outside data memory. -/
theorem effect_status {s t : State} {i : Instr} (h : Effect s i t) :
    t.status = s.status ∨
      ∃ op rt rs imm, i = AccessOp.instr op rt rs imm ∧ Config.dmemWords ≤ (effectiveAddress rs imm s).toNat ∧
        t = s.raiseOutOfBounds (effectiveAddress rs imm s) op := by
  cases h with
  | halt | none | reg | data | pc | link => exact .inl rfl
  | outOfBounds ho => exact .inr ⟨_, _, _, _, rfl, ho, rfl⟩

theorem effect_dmem_wf {s t : State} {i : Instr} (hwf : Memory.wf Config.dmemWords s.dmem) (h : Effect s i t) :
    Memory.wf Config.dmemWords t.dmem := by
  cases h with
  | halt | none | reg | outOfBounds | pc | link => exact hwf
  | data hin => exact write_wf hwf hin _

theorem effect_runFlag {s t : State} {i : Instr} (h : Effect s i t) (hne : t.runFlag ≠ s.runFlag) :
    i = .halt ∧ t.runFlag = false := by
  cases h with
  | halt => exact ⟨rfl, rfl⟩
  | none | reg | data | outOfBounds | pc | link => exact absurd rfl hne

theorem effect_readReg {s t : State} {i : Instr} {q : Reg} (h : Effect s i t) (hne : t.readReg q ≠ s.readReg q) :
    destination i = some q := by
  have written {r : Reg} {v : Word} (hw : (s.writeReg r v).readReg q ≠ s.readReg q) : r = q :=
    not_not.mp fun hrq => hw (readReg_writeReg_ne s v (Ne.symm hrq))
  cases h with
  | halt | none | data | outOfBounds | pc => exact absurd rfl hne
  | reg v hd => exact hd.trans (congrArg some (written hne))
  | link => exact congrArg some (written hne)

theorem effect_readData {s t : State} {i : Instr} {a : Nat} (h : Effect s i t) (hne : t.readData a ≠ s.readData a) :
    ∃ rt rs imm, i = .sw rt rs imm ∧ a = (effectiveAddress rs imm s).toNat ∧ a < Config.dmemWords ∧
      t = s.writeData a (s.readReg rt) := by
  cases h with
  | halt | none | reg | outOfBounds | pc | link => exact absurd rfl hne
  | data hin =>
    have ha := not_not.mp fun ha => hne (readData_writeData_ne s _ ha)
    subst ha
    exact ⟨_, _, _, rfl, rfl, hin, rfl⟩

/-! ## From an instruction's effect to the step that runs it -/

theorem step_of_exec {s u : State} {i : Instr} (h : RunsInstr s i) (hu : exec i s = .next u) :
    step s = .next u.finishStep := by
  rw [step_decoded h, hu]
  rfl

/-- A step whose instruction neither halts nor faults lands one past the `pc` its effect leaves. -/
theorem lands_of_exec {s u : State} {i : Instr} (h : RunsInstr s i) (hu : exec i s = .next u)
    (hst : u.status = .running) (hf : u.runFlag = true) : Lands s (u.pc.toNat + 1) := by
  have hle := effect_pc_le h.pc_lt (effect_of_exec hu)
  have hpc := pc_add_loopIncrement_toNat (p := u.pc) (by omega)
  refine ⟨_, step_of_exec h hu, ?_, ?_⟩
  · rw [finishStep_pc_of_running hst, hpc]
  · rw [finishStep_status_of_running hst, hf, stopStatus_true, hpc]

/-- If a step changes something that neither the loop nor the log touches, then it ran an instruction, and the change is
that instruction's own effect. -/
theorem effect_of_step_changes {α : Type} (f : State → α) (hset : ∀ s st, f (State.setStatus s st) = f s)
    (hlog : ∀ s w, f (State.logUnsupported s w) = f s) (hfin : ∀ s, f (State.finishStep s) = f s) {s t : State}
    (h : step s = .next t) (hne : f t ≠ f s) : ∃ i u, RunsInstr s i ∧ Effect s i u ∧ f t = f u := by
  cases stepCase_of_step h with
  | stopped => exact absurd rfl hne
  | settled => exact absurd (hset s _) hne
  | ran hi he => exact ⟨_, _, hi, he, hfin _⟩
  | logged => exact absurd ((hfin _).trans (hlog s _)) hne

end Sys2Proof.Proofs
end

section
/-! The invariant: it holds before the first step of any loaded program, every step keeps it, and so does every run
(R18, R20, R21, R30). -/

namespace Sys2Proof.Proofs

open Sys2Proof.Machine

/-! ## What a step keeps -/

/-- The status that the loop computes agrees with RunFlag and `pc`. -/
theorem statusAgrees_of_stopStatus {s : State} (h : s.status = stopStatus s.runFlag s.pc) : StatusAgrees s := by
  cases hst : s.status with
  | running => simpa only [StatusAgrees, hst] using (stopStatus_eq_running_iff ..).mp (h.symm.trans hst)
  | halted => simpa only [StatusAgrees, hst] using (stopStatus_eq_halted_iff ..).mp (h.symm.trans hst)
  | neverTerminated =>
    simpa only [StatusAgrees, hst] using (stopStatus_eq_neverTerminated_iff ..).mp (h.symm.trans hst)
  | faultOob => exact (stopStatus_ne_faultOob _ _ _ _ _ (h.symm.trans hst)).elim

/-- An instruction that reached outside data memory leaves the status that names it. -/
theorem statusAgrees_raiseOutOfBounds {s : State} {op : AccessOp} {rt rs : Reg} {imm : Imm}
    (h : RunsInstr s (op.instr rt rs imm)) (ho : Config.dmemWords ≤ (effectiveAddress rs imm s).toNat) :
    StatusAgrees (s.raiseOutOfBounds (effectiveAddress rs imm s) op) :=
  ⟨h.flag, rfl, h.pc_lt, ho, rt, rs, imm, h.decoded, rfl⟩

/-- A record of the log is about instruction memory alone. -/
theorem recordAgrees_congr {s t : State} {e : UnsupportedEvent} (h : t.imem = s.imem) (he : RecordAgrees s e) :
    RecordAgrees t e := by
  simpa only [RecordAgrees, State.readInstr, h] using he

/-- The record that a step appends for an unsupported word agrees with the word at `pc`. -/
theorem recordAgrees_unsupported {s : State} (h : RunsUnsupported s) :
    RecordAgrees s ⟨s.pc, s.readInstr s.pc.toNat⟩ := by
  obtain ⟨e, he⟩ := h.decoded
  exact ⟨h.pc_lt, rfl, _, e, he⟩

theorem inv_finishStep {s : State} (hst : s.status = .running) (himem : Memory.wf Config.imemWords s.imem)
    (hdmem : Memory.wf Config.dmemWords s.dmem) (hpc : s.pc.toNat ≤ 2 ^ 26 - 1)
    (hlog : ∀ e ∈ s.log, RecordAgrees s e) : Inv s.finishStep where
  imem_wf := by rwa [finishStep_imem]
  dmem_wf := by rwa [finishStep_dmem]
  pc_le := by
    rw [finishStep_pc_of_running hst, pc_add_loopIncrement_toNat (by omega)]
    omega
  status := statusAgrees_of_stopStatus (by
    rw [finishStep_status_of_running hst, finishStep_pc_of_running hst, finishStep_runFlag])
  log := by
    rw [finishStep_log]
    exact fun e he => recordAgrees_congr (finishStep_imem s) (hlog e he)

theorem inv_finishStep_of_effect {s t : State} {i : Instr} (hinv : Inv s) (h : RunsInstr s i) (he : Effect s i t) :
    Inv t.finishStep := by
  rcases effect_status he with hst | ⟨op, rt, rs, imm, rfl, ho, rfl⟩
  · refine inv_finishStep (hst.trans h.running) ?_ (effect_dmem_wf hinv.dmem_wf he) (effect_pc_le h.pc_lt he) ?_
    · rw [effect_imem he]
      exact hinv.imem_wf
    · rw [effect_log he]
      exact fun e hmem => recordAgrees_congr (effect_imem he) (hinv.log e hmem)
  · rw [finishStep_raiseOutOfBounds]
    exact ⟨hinv.imem_wf, hinv.dmem_wf, hinv.pc_le, statusAgrees_raiseOutOfBounds h ho, hinv.log⟩

theorem inv_finishStep_logUnsupported {s : State} (hinv : Inv s) (h : RunsUnsupported s) :
    Inv (s.logUnsupported (s.readInstr s.pc.toNat)).finishStep := by
  have hpc : s.pc.toNat < 4096 := h.pc_lt
  have hle : s.pc.toNat ≤ 2 ^ 26 - 1 := by omega
  refine inv_finishStep h.running hinv.imem_wf hinv.dmem_wf hle fun e he => ?_
  rw [logUnsupported_log, List.mem_append, List.mem_singleton] at he
  rcases he with he | rfl
  · exact hinv.log e he
  · exact recordAgrees_congr (logUnsupported_imem s _) (recordAgrees_unsupported h)

/-- In a state that meets the invariant the loop's test never has to settle a RUNNING status (R97; log entry 6). -/
theorem stopStatus_of_running {s : State} (hinv : Inv s) (hr : s.status = .running) :
    stopStatus s.runFlag s.pc = .running := by
  have hagree := hinv.status
  simp only [StatusAgrees, hr] at hagree
  exact (stopStatus_eq_running_iff ..).mpr hagree

/-- Settles O12, by the cases of a step: an instruction ran, or an unsupported word was logged. -/
theorem stepKeepsTheInvariant : Obligations.StepKeepsTheInvariant := by
  intro s t hinv h
  cases stepCase_of_step h with
  | stopped => exact hinv
  | settled hr hs => exact absurd (stopStatus_of_running hinv hr) hs
  | ran hi he => exact inv_finishStep_of_effect hinv hi he
  | logged hu => exact inv_finishStep_logUnsupported hinv hu

/-! ## What the host can set up before the first step (R108, R110, R128) -/

/-- The core is as reset left it, but for the registers and the words of its two memories. -/
structure Unstarted (s : State) : Prop where
  imem_wf : Memory.wf Config.imemWords s.imem
  dmem_wf : Memory.wf Config.dmemWords s.dmem
  pc_zero : s.pc = 0
  flag : s.runFlag = true
  running : s.status = .running
  log_nil : s.log = []

theorem unstarted_reset : Unstarted State.reset := ⟨wf_nil _, wf_nil _, rfl, rfl, rfl, rfl⟩

theorem unstarted_writeReg {s : State} (h : Unstarted s) (r : Reg) (v : Word) : Unstarted (s.writeReg r v) :=
  ⟨h.imem_wf, h.dmem_wf, h.pc_zero, h.flag, h.running, h.log_nil⟩

theorem unstarted_writeSpace {s : State} (h : Unstarted s) {space : Space} {i : Nat} (hi : i < space.words) (v : Word) :
    Unstarted (s.writeSpace space i v) := by
  cases space with
  | instruction => exact ⟨write_wf h.imem_wf hi v, h.dmem_wf, h.pc_zero, h.flag, h.running, h.log_nil⟩
  | data => exact ⟨h.imem_wf, write_wf h.dmem_wf hi v, h.pc_zero, h.flag, h.running, h.log_nil⟩

theorem unstarted_loadLines {space : Space} {ls : List (Option Nat)} :
    ∀ {i : Nat} {s t : State}, Unstarted s → loadLines space i ls s = .next t → Unstarted t := by
  induction ls with
  | nil =>
    intro i s t hs h
    cases h
    exact hs
  | cons line rest ih =>
    intro i s t hs h
    unfold loadLines at h
    split at h
    · cases h
    · next hi =>
      split at h
      · cases h
      · split at h
        · exact ih (unstarted_writeSpace hs (Nat.lt_of_not_le hi) _) h
        · cases h

theorem unstarted_hostLoad {run : Bool} {space : Space} {ls : List (Option Nat)} {s t : State} (hs : Unstarted s)
    (h : hostLoad run space ls s = .next t) : Unstarted t := by
  unfold hostLoad at h
  split at h
  · exact unstarted_loadLines hs h
  · cases h
    exact hs

theorem unstarted_presetRegs (presets : List (Reg × Word)) :
    ∀ {s : State}, Unstarted s → Unstarted (presetRegs presets s) := by
  induction presets with
  | nil => exact fun hs => hs
  | cons p rest ih => exact fun hs => ih (unstarted_writeReg hs p.1 p.2)

theorem unstarted_hostPreset {run : Bool} {s : State} (hs : Unstarted s) (presets : List (Reg × Word)) :
    Unstarted (hostPreset run presets s) := by
  unfold hostPreset
  split
  · exact unstarted_presetRegs presets hs
  · exact hs

theorem mapNext_eq_next {f : State → State} {o : Host.Outcome State Fault Refusal} {t : State}
    (h : mapNext f o = .next t) : ∃ s, o = .next s ∧ t = f s := by
  cases o with
  | next s =>
    cases h
    exact ⟨s, rfl, rfl⟩
  | fault | refused => cases h

/-- A boot that gives a state loaded instruction memory, then data memory, then preset the registers (R128). -/
theorem boot_eq_next {imemLines dmemLines : List (Option Nat)} {presets : List (Reg × Word)} {s : State}
    (h : boot imemLines dmemLines presets = .next s) :
    ∃ u v, hostLoad false .instruction imemLines State.reset = .next u ∧
      hostLoad false .data dmemLines u = .next v ∧ s = hostPreset false presets v := by
  unfold boot at h
  split at h
  · next u hu =>
    obtain ⟨v, hv, rfl⟩ := mapNext_eq_next h
    exact ⟨u, v, hu, hv, rfl⟩
  · cases h
  · cases h

theorem unstarted_boot {imemLines dmemLines : List (Option Nat)} {presets : List (Reg × Word)} {s : State}
    (h : boot imemLines dmemLines presets = .next s) : Unstarted s := by
  obtain ⟨u, v, hu, hv, rfl⟩ := boot_eq_next h
  exact unstarted_hostPreset (unstarted_hostLoad (unstarted_hostLoad unstarted_reset hu) hv) presets

theorem inv_of_unstarted {s : State} (h : Unstarted s) : Inv s where
  imem_wf := h.imem_wf
  dmem_wf := h.dmem_wf
  pc_le := by simp [h.pc_zero]
  status := statusAgrees_of_stopStatus (by
    rw [h.running, h.flag, h.pc_zero]
    rfl)
  log := by simp [h.log_nil]

/-- Settles O11: reset is the state from which the host sets up a program. -/
theorem resetMeetsTheInvariant : Obligations.ResetMeetsTheInvariant :=
  inv_of_unstarted unstarted_reset

/-- Settles O13, by induction over the run: boot meets the invariant, and every step keeps it. -/
theorem everyReachableStateMeetsTheInvariant : Obligations.EveryReachableStateMeetsTheInvariant := by
  intro imemLines dmemLines presets k s t hboot hrun
  exact run_keeps stepKeepsTheInvariant k (inv_of_unstarted (unstarted_boot hboot)) hrun

end Sys2Proof.Proofs
end

section
/-! What a step can change, and which instruction it takes: registers, data memory, RunFlag, and the `pc` of every step
that is neither a transfer nor a stop (R16, R19, R23, R98). -/

namespace Sys2Proof.Proofs

open Sys2Proof.Machine Sys2Proof.Claims

/-- Settles O37: of the effects only a store writes data memory, and a read of the word written gives the value. -/
theorem onlyAStoreChangesDataMemory : Obligations.OnlyAStoreChangesDataMemory := by
  intro s t a hwf h hne
  obtain ⟨i, u, hi, he, htu⟩ := effect_of_step_changes (fun s => s.readData a) (fun s st => setStatus_readData s st a)
    (fun s w => logUnsupported_readData s w a) (fun s => finishStep_readData s a) h hne
  obtain ⟨rt, rs, imm, rfl, ha, hlt, rfl⟩ := effect_readData he (htu ▸ hne)
  exact ⟨rt, rs, imm, hi, ha, hlt, htu.trans (readData_writeData_same hwf a _)⟩

/-- Settles O38: every effect that writes a register writes its instruction's destination. -/
theorem onlyTheDestinationRegisterChanges : Obligations.OnlyTheDestinationRegisterChanges := by
  intro s t q h hne
  obtain ⟨i, u, hi, he, htu⟩ := effect_of_step_changes (fun s => s.readReg q) (fun s st => setStatus_readReg s st q)
    (fun s w => logUnsupported_readReg s w q) (fun s => finishStep_readReg s q) h hne
  exact ⟨i, hi, effect_readReg he (htu ▸ hne)⟩

/-- Settles O39: of the effects only that of `halt` writes RunFlag. -/
theorem onlyHaltWritesRunFlag : Obligations.OnlyHaltWritesRunFlag := by
  intro s t h hne
  obtain ⟨i, u, hi, he, htu⟩ := effect_of_step_changes State.runFlag setStatus_runFlag logUnsupported_runFlag
    finishStep_runFlag h hne
  obtain ⟨rfl, hu⟩ := effect_runFlag he (htu ▸ hne)
  exact ⟨hi, htu.trans hu⟩

/-- Settles O32: each effect that is left keeps `pc`, the status and RunFlag, so the loop alone moves `pc`. -/
theorem otherStepsAdvancePcByOne : Obligations.OtherStepsAdvancePcByOne := by
  intro s i hi hother
  obtain ⟨u, hu, he⟩ := exec_effect i s
  cases he with
  | halt => exact hother.elim
  | none | reg | data => exact (lands_of_exec hi hu hi.running hi.flag :)
  | @outOfBounds op rt rs imm hout =>
    have hin : (effectiveAddress rs imm s).toNat < Config.dmemWords := by cases op <;> exact hother
    omega
  | pc _ ht =>
    cases i with
    | beq | bne | j | jal => exact hother.elim
    | _ => cases ht
  | link => exact hother.elim

end Sys2Proof.Proofs
end

section
/-! The instructions `jal` and `halt`: their words, their own effects, and the steps that run them (R60, R69, R92, R99). -/

namespace Sys2Proof.Proofs

open Sys2Proof.Machine Sys2Proof.Claims

/-! ## Words that match a row of another opcode (R58) -/

/-- A word that matches an opcode row with an opcode other than 0 is read by its opcode alone. -/
theorem decode_of_opcodeRow {w m : Word} (v : Word) (h : w &&& 0xFC000000 = m) (h0 : m.toNat / 2 ^ 26 ≠ 0) :
    decode w v = decodeOpcode w ∧ (opcodeField w).toNat = m.toNat / 2 ^ 26 := by
  have hop : w.toNat / 2 ^ 26 = m.toNat / 2 ^ 26 := by
    have hmask := and_opcodeMask w
    rw [h] at hmask
    omega
  exact ⟨decode_of_opcode (hop ▸ h0), (opcodeField_toNat w).trans hop⟩

/-- A J-type row holds when `decodeOpcode` answers the row's instruction on the row's opcode. -/
theorem jTypeRow_of_decodeOpcode {mk : Target → Instr} {m : Word} (h0 : m.toNat / 2 ^ 26 ≠ 0)
    (hd : ∀ w, (opcodeField w).toNat = m.toNat / 2 ^ 26 → decodeOpcode w = .ok (mk (targetField w))) :
    JTypeRow mk m := by
  intro w v h
  obtain ⟨hdec, hop⟩ := decode_of_opcodeRow v h h0
  rw [hdec, hd w hop]

theorem decodeOpcode_jal {w : Word} (h : (opcodeField w).toNat = 3) : decodeOpcode w = .ok (.jal (targetField w)) := by
  simp only [decodeOpcode, h]

/-! ## `jal` (R92) -/

theorem exec_jal (target : Target) (s : State) :
    exec (.jal target) s = .next ((s.writeReg Config.linkReg (linkValue s)).setPc (jumpTarget target)) := rfl

theorem linkValue_toNat_of_pc_lt {s : State} (h : s.pc.toNat < Config.imemWords) :
    (linkValue s).toNat = s.pc.toNat + 4 := by
  have h' : s.pc.toNat < 4096 := h
  rw [linkValue_toNat]
  omega

theorem lands_jal {s : State} {target : Target} (h : RunsInstr s (.jal target)) : Lands s (target.toNat + 1) := by
  have hland := lands_of_exec h (exec_jal target s) h.running h.flag
  rwa [setPc_pc, jumpTarget_toNat] at hland

/-- Settles O25: opcode 3 selects `jal`, and what its effect writes survives the loop increment. -/
theorem jalLinksPcPlusFourAndLandsOnePast : Obligations.JalLinksPcPlusFourAndLandsOnePast := by
  refine ⟨jTypeRow_of_decodeOpcode (by decide) fun _ => decodeOpcode_jal, fun target s => ?_, fun s target h => ?_⟩
  · refine ⟨_, exec_jal target s, jumpTarget_toNat target, ?_, ?_, fun _ => rfl, fun _ => rfl, rfl, rfl, rfl⟩
    · rw [setPc_readReg, readReg_writeReg_same, linkValue_toNat]
    · exact fun q hq => readReg_writeReg_ne s _ hq
  · refine ⟨lands_jal h, fun t ht => ?_⟩
    cases (step_of_exec h (exec_jal target s)).symm.trans ht
    rw [finishStep_readReg, setPc_readReg, readReg_writeReg_same, linkValue_toNat_of_pc_lt h.pc_lt]

/-! ## `halt` (R60, R69, R99) -/

theorem exec_halt (s : State) : exec .halt s = .next s.clearRunFlag := rfl

/-- With another value in the halt register, the halt word is funct 12 of opcode 0, which no row has. -/
theorem decode_haltWord_of_ne {v : Word} (h : v ≠ Config.haltCode) :
    decode Config.haltWord v = .error (.funct 12) := by
  rw [decode_of_opcode_zero (fun hh => h hh.2) (by decide) (by decide)]
  rfl

theorem runsInstr_halt {s : State} (h : Steps s) (hw : s.readInstr s.pc.toNat = Config.haltWord)
    (hv : s.readReg Config.haltReg = Config.haltCode) : RunsInstr s .halt :=
  ⟨h, by rw [hw, hv, decode_halt]⟩

theorem finishStep_clearRunFlag_status {s : State} (h : s.status = .running) :
    s.clearRunFlag.finishStep.status = .halted := by
  rw [finishStep_status_of_running (s := s.clearRunFlag) h, clearRunFlag_runFlag, stopStatus_eq_halted_iff]

/-- Settles O26: a cleared RunFlag makes the computed status HALTED at every `pc`, and a stopped core takes no step. -/
theorem haltClearsRunFlagAndStops : Obligations.HaltClearsRunFlagAndStops := by
  refine ⟨fun s => ?_, fun s h hw hv => ?_, fun s h hw hv => ?_⟩
  · exact ⟨_, exec_halt s, rfl, rfl, rfl, rfl, fun _ => rfl, fun _ => rfl, fun _ => rfl⟩
  · have hpc : s.pc.toNat < 4096 := h.pc_lt
    have hst := finishStep_clearRunFlag_status h.running
    refine ⟨_, step_of_exec (runsInstr_halt h hw hv) (exec_halt s), finishStep_runFlag _, hst, ?_, finishStep_log _,
      fun q => finishStep_readReg _ q, fun i => finishStep_readInstr _ i, fun i => finishStep_readData _ i, ?_⟩
    · rw [finishStep_pc_of_running (s := s.clearRunFlag) h.running, clearRunFlag_pc,
        pc_add_loopIncrement_toNat (by omega)]
    · exact step_stopped (by simp [Stopped, hst])
  · exact ⟨h, _, by rw [hw]; exact decode_haltWord_of_ne hv⟩

end Sys2Proof.Proofs
end

section
/-! A memory in canonical form is determined by its reads (R33; log entry 1). -/

namespace Sys2Proof.Proofs

open Sys2Proof.Machine

/-- A canonical memory lists exactly the words that its reads tell apart from an unlisted one. -/
theorem mem_iff_read {size : Nat} {m : Memory} (h : Memory.wf size m) (c : WordCell) :
    c ∈ m ↔ Memory.read m c.1 = c.2 ∧ c.2 ≠ Memory.unlisted := by
  induction m with
  | nil =>
    simp only [List.not_mem_nil, Memory.read, false_iff, not_and, not_not]
    exact Eq.symm
  | cons d m ih =>
    obtain ⟨hlt, -, hne, hm⟩ := wf_cons.mp h
    rw [List.mem_cons, Memory.read]
    split
    · next heq =>
      have hc : c ∉ m := fun hc => (hlt c hc).ne heq.symm
      simp only [hc, or_false, Prod.ext_iff, heq, true_and]
      exact ⟨fun h2 => ⟨h2.symm, h2 ▸ hne⟩, fun h2 => h2.1.symm⟩
    · next hidx =>
      have hc : c ≠ d := fun hc => hidx (congrArg Prod.fst hc)
      simp only [hc, false_or, ih hm]

/-- Cells listed with strictly rising indices are determined by which cells are listed. -/
theorem eq_of_mem_iff_of_pairwise {a b : Memory} (ha : a.Pairwise (fun c d => c.1 < d.1))
    (hb : b.Pairwise (fun c d => c.1 < d.1)) (h : ∀ c, c ∈ a ↔ c ∈ b) : a = b :=
  have : Std.Antisymm (fun c d : WordCell => c.1 < d.1) := ⟨fun _ _ hcd hdc => absurd hcd hdc.asymm⟩
  have : Std.Irrefl (fun c d : WordCell => c.1 < d.1) := ⟨fun c => Nat.lt_irrefl c.1⟩
  ha.eq_of_mem_iff hb h

/-- Settles O14: memories that read alike list the same cells, and a canonical list is determined by its cells. -/
theorem canonicalMemoriesThatReadAlikeAreEqual : Obligations.CanonicalMemoriesThatReadAlikeAreEqual := by
  intro size a b ha hb hread
  have hall : ∀ i, Memory.read a i = Memory.read b i := by
    intro i
    rcases Nat.lt_or_ge i size with hi | hi
    · exact hread i hi
    · rw [read_eq_unlisted_of_ge ha hi, read_eq_unlisted_of_ge hb hi]
  refine eq_of_mem_iff_of_pairwise ha.1 hb.1 fun c => ?_
  rw [mem_iff_read ha, mem_iff_read hb, hall]

end Sys2Proof.Proofs
end

section
/-! Loads and stores: the words of `lw` and `sw`, the access inside data memory and the stop outside it (R41, R86, R87,
R102), and instruction memory, which no step reaches (R47). -/

namespace Sys2Proof.Proofs

open Sys2Proof.Machine Sys2Proof.Claims

/-! ## The words of `lw` and `sw` (R58) -/

/-- An I-type row holds when `decodeOpcode` answers the row's instruction on the row's opcode. -/
theorem iTypeRow_of_decodeOpcode {mk : Reg → Reg → Imm → Instr} {m : Word} (h0 : m.toNat / 2 ^ 26 ≠ 0)
    (hd : ∀ w, (opcodeField w).toNat = m.toNat / 2 ^ 26 →
      decodeOpcode w = .ok (mk (rsField w) (rtField w) (immField w))) : ITypeRow mk m := by
  intro w v h
  obtain ⟨hdec, hop⟩ := decode_of_opcodeRow v h h0
  rw [hdec, hd w hop]

theorem decodeOpcode_lw {w : Word} (h : (opcodeField w).toNat = 35) :
    decodeOpcode w = .ok (.lw (rtField w) (rsField w) (immField w)) := by
  simp only [decodeOpcode, h]

theorem decodeOpcode_sw {w : Word} (h : (opcodeField w).toNat = 43) :
    decodeOpcode w = .ok (.sw (rtField w) (rsField w) (immField w)) := by
  simp only [decodeOpcode, h]

/-! ## Inside and outside data memory (R42, R102) -/

/-- An instruction that raises FAULT_OOB ends its step at once: the loop adds nothing. -/
theorem step_of_exec_raiseOutOfBounds {s : State} {i : Instr} {ea : Word} {op : AccessOp} (h : RunsInstr s i)
    (hexec : exec i s = .next (s.raiseOutOfBounds ea op)) : step s = .next (s.raiseOutOfBounds ea op) := by
  rw [step_of_exec h hexec, finishStep_raiseOutOfBounds]

/-- Settles O21: opcode 35 selects `lw`; inside data memory its meaning writes one register, and outside it the step stays
as the fault left it. -/
theorem lwLoadsTheWordAtItsAddressOrStops : Obligations.LwLoadsTheWordAtItsAddressOrStops := by
  refine ⟨iTypeRow_of_decodeOpcode (by decide) fun _ => decodeOpcode_lw, fun rt rs imm s =>
    ⟨effectiveAddress_toNat rs imm s, fun hin => ?_, fun hout => ?_⟩⟩
  · exact ⟨_, exec_lw_inside hin, readReg_writeReg_same .., onlyReg_writeReg ..⟩
  · exact ⟨exec_lw_outside hout, fun h => step_of_exec_raiseOutOfBounds h (exec_lw_outside hout)⟩

/-- Settles O22: opcode 43 selects `sw`; inside data memory its meaning writes one data word, and outside it the step stays
as the fault left it. -/
theorem swStoresToTheWordAtItsAddressOrStops : Obligations.SwStoresToTheWordAtItsAddressOrStops := by
  refine ⟨iTypeRow_of_decodeOpcode (by decide) fun _ => decodeOpcode_sw, fun rt rs imm s hwf =>
    ⟨effectiveAddress_toNat rs imm s, fun hin => ?_, fun hout => ?_⟩⟩
  · exact ⟨_, exec_sw_inside hin, readData_writeData_same hwf .., onlyData_writeData ..⟩
  · exact ⟨exec_sw_outside hout, fun h => step_of_exec_raiseOutOfBounds h (exec_sw_outside hout)⟩

/-! ## Instruction memory (R47) -/

theorem step_imem {s t : State} (h : step s = .next t) : t.imem = s.imem := by
  cases stepCase_of_step h with
  | stopped => rfl
  | settled => exact setStatus_imem s _
  | ran _ he => exact (finishStep_imem _).trans (effect_imem he)
  | logged => exact (finishStep_imem _).trans (logUnsupported_imem s _)

/-- Settles O36, by induction over the run: no step writes instruction memory. -/
theorem noRunWritesInstructionMemory : Obligations.NoRunWritesInstructionMemory := by
  intro s t k hrun
  have hkeeps : ∀ u v : State, u.imem = s.imem → step u = .next v → v.imem = s.imem :=
    fun _ _ hu hstep => (step_imem hstep).trans hu
  exact run_keeps hkeeps k rfl hrun

end Sys2Proof.Proofs
end

section
/-! Decoding and encoding (R51 to R62, R68): the fields of a word are its bits, a word decodes to exactly the
instruction its bits spell, and the word of an instruction spells it. -/

namespace Sys2Proof.Proofs

open Sys2Proof.Machine Sys2Proof.Claims

/-! ## The fields of a word are its bits (R51) -/

theorem bits_eq_extractLsb' (w : Word) (lo n : Nat) : bits w lo n = (w.extractLsb' lo n).toNat := by
  rw [bits, BitVec.extractLsb'_toNat, Nat.shiftRight_eq_div_pow]

theorem bits_opcode (w : Word) : bits w 26 6 = (opcodeField w).toNat := bits_eq_extractLsb' w 26 6

theorem bits_funct (w : Word) : bits w 0 6 = (functField w).toNat := bits_eq_extractLsb' w 0 6

theorem bits_rs (w : Word) : bits w 21 5 = (rsField w).val := (rsField_val w).symm

theorem bits_rt (w : Word) : bits w 16 5 = (rtField w).val := (rtField_val w).symm

theorem bits_rd (w : Word) : bits w 11 5 = (rdField w).val := (rdField_val w).symm

theorem bits_shamt (w : Word) : bits w 6 5 = (shamtField w).val := (shamtField_val w).symm

theorem bits_imm (w : Word) : bits w 0 16 = (immField w).toNat := bits_eq_extractLsb' w 0 16

theorem bits_target (w : Word) : bits w 0 26 = (targetField w).toNat := bits_eq_extractLsb' w 0 26

theorem rTypeBits_iff {w : Word} {funct : Nat} {rd rs rt : Reg} {shamt : Shamt} :
    RTypeBits w funct rd rs rt shamt ↔ (opcodeField w).toNat = 0 ∧ (functField w).toNat = funct ∧
      rs = rsField w ∧ rt = rtField w ∧ rd = rdField w ∧ shamt = shamtField w := by
  simp only [RTypeBits, bits_opcode, bits_funct, bits_rs, bits_rt, bits_rd, bits_shamt, Fin.ext_iff]

theorem iTypeBits_iff {w : Word} {opcode : Nat} {rs rt : Reg} {imm : Imm} :
    ITypeBits w opcode rs rt imm ↔
      (opcodeField w).toNat = opcode ∧ rs = rsField w ∧ rt = rtField w ∧ imm = immField w := by
  simp only [ITypeBits, bits_opcode, bits_rs, bits_rt, bits_imm, Fin.ext_iff, BitVec.toNat_inj]

theorem jTypeBits_iff {w : Word} {opcode : Nat} {target : Target} :
    JTypeBits w opcode target ↔ (opcodeField w).toNat = opcode ∧ target = targetField w := by
  simp only [JTypeBits, bits_opcode, bits_target, BitVec.toNat_inj]

/-! ## Which decoder reads a word (R57) -/

theorem decode_eq_decodeFunct {w : Word} (v : Word) (hop : (opcodeField w).toNat = 0) (h0 : w ≠ 0)
    (hh : ¬(w = Config.haltWord ∧ v = Config.haltCode)) : decode w v = decodeFunct w :=
  decode_of_opcode_zero hh h0 ((opcodeField_toNat w).symm.trans hop)

theorem decode_eq_decodeOpcode {w : Word} (v : Word) (hop : (opcodeField w).toNat ≠ 0) : decode w v = decodeOpcode w :=
  decode_of_opcode (opcodeField_toNat w ▸ hop)

/-- Only the halt row reads the register (R60). -/
theorem decode_congr_of_ne_haltWord {w : Word} (h : w ≠ Config.haltWord) (v u : Word) : decode w v = decode w u := by
  simp only [decode, h, false_and, if_false]

/-- A word of an R-type row, NOP and the halt word aside, is read by its funct. -/
theorem decode_of_rTypeBits {w : Word} {funct : Nat} {rd rs rt : Reg} {shamt : Shamt} (v : Word)
    (h : RTypeBits w funct rd rs rt shamt) (h0 : w ≠ 0) (h12 : funct ≠ 12) : decode w v = decodeFunct w := by
  obtain ⟨hop, hfn, -⟩ := rTypeBits_iff.mp h
  refine decode_eq_decodeFunct v hop h0 ?_
  rintro ⟨rfl, -⟩
  exact h12 hfn.symm

theorem ne_zero_of_rTypeBits {w : Word} {funct : Nat} {rd rs rt : Reg} {shamt : Shamt}
    (h : RTypeBits w funct rd rs rt shamt) (hfunct : funct ≠ 0) : w ≠ 0 := by
  obtain ⟨-, hfn, -⟩ := rTypeBits_iff.mp h
  rintro rfl
  exact hfunct hfn.symm

/-! ## A word decodes to exactly what its bits spell (R57 to R61) -/

theorem spells_of_decodeFunct {w : Word} {i : Instr} (v : Word) (hop : (opcodeField w).toNat = 0) (h0 : w ≠ 0)
    (h : decodeFunct w = .ok i) : Spells w v i := by
  have hbits {n : Nat} (hfn : (functField w).toNat = n) :
      RTypeBits w n (rdField w) (rsField w) (rtField w) (shamtField w) :=
    rTypeBits_iff.mpr ⟨hop, hfn, rfl, rfl, rfl, rfl⟩
  unfold decodeFunct at h
  split at h <;> cases h
  case h_6 hfn => exact ⟨h0, hbits hfn⟩
  all_goals exact hbits ‹_›

theorem spells_of_decodeOpcode {w : Word} {i : Instr} (v : Word) (h : decodeOpcode w = .ok i) : Spells w v i := by
  unfold decodeOpcode at h
  split at h <;> cases h
  case h_8 hop | h_9 hop => exact jTypeBits_iff.mpr ⟨hop, rfl⟩
  all_goals exact iTypeBits_iff.mpr ⟨‹_›, rfl, rfl, rfl⟩

theorem spells_of_decode {w v : Word} {i : Instr} (h : decode w v = .ok i) : Spells w v i := by
  rcases decode_cases w v with ⟨hw, hv, hd⟩ | ⟨hw, hd⟩ | ⟨-, h0, hop, hd⟩ | ⟨-, hd⟩ <;> rw [hd] at h
  · cases h
    exact ⟨hw, hv⟩
  · cases h
    exact hw
  · exact spells_of_decodeFunct v ((opcodeField_toNat w).trans hop) h0 h
  · exact spells_of_decodeOpcode v h

theorem decode_of_spells {w v : Word} {i : Instr} (h : Spells w v i) : decode w v = .ok i := by
  cases i with
  | halt =>
    obtain ⟨rfl, rfl⟩ := h
    exact decode_halt
  | nop =>
    cases h
    exact decode_zero v
  | sll =>
    obtain ⟨h0, h⟩ := h
    rw [decode_of_rTypeBits v h h0 (by decide)]
    obtain ⟨-, hfn, rfl, rfl, rfl, rfl⟩ := rTypeBits_iff.mp h
    simp only [decodeFunct, hfn]
  | add | and | nor | or | slt | sra | srl | sub =>
    rw [decode_of_rTypeBits v h (ne_zero_of_rTypeBits h (by decide)) (by decide)]
    obtain ⟨-, hfn, rfl, rfl, rfl, rfl⟩ := rTypeBits_iff.mp h
    simp only [decodeFunct, hfn]
  | addi | andi | ori | lw | sw | beq | bne =>
    obtain ⟨hop, rfl, rfl, rfl⟩ := iTypeBits_iff.mp h
    rw [decode_eq_decodeOpcode v (by rw [hop]; decide)]
    simp only [decodeOpcode, hop]
  | j | jal =>
    obtain ⟨hop, rfl⟩ := jTypeBits_iff.mp h
    rw [decode_eq_decodeOpcode v (by rw [hop]; decide)]
    simp only [decodeOpcode, hop]

/-- Settles O4: each row of the decoder tests and reads the bits that spell its instruction. -/
theorem decodeReadsExactlyTheBitsOfTheWord : Obligations.DecodeReadsExactlyTheBitsOfTheWord :=
  fun _ _ _ => ⟨spells_of_decode, decode_of_spells⟩

/-! ## The word of an instruction spells it (R68) -/

/-- Settles O3: the fields of each layout share no bit, so joining them is adding them. -/
theorem encodedWordIsTheSumOfItsFields : Obligations.EncodedWordIsTheSumOfItsFields := by
  intro i
  cases i with
  | halt | nop => rfl
  | add | and | nor | or | slt | sll | sra | srl | sub => exact encodeR_toNat ..
  | addi | andi | ori | lw | sw | beq | bne => exact encodeI_toNat ..
  | j | jal => exact encodeJ_toNat ..

theorem rTypeBits_encodeR (rs rt rd : Reg) (shamt : Shamt) (funct : BitVec 6) :
    RTypeBits (encodeR rs rt rd shamt funct) funct.toNat rd rs rt shamt := by
  have hs := reg_lt rs
  have ht := reg_lt rt
  have hd := reg_lt rd
  have ha := shamt.isLt
  have hf := funct.isLt
  simp only [RTypeBits, bits, encodeR_toNat]
  omega

theorem iTypeBits_encodeI (opcode : BitVec 6) (rs rt : Reg) (imm : Imm) :
    ITypeBits (encodeI opcode rs rt imm) opcode.toNat rs rt imm := by
  have ho := opcode.isLt
  have hs := reg_lt rs
  have ht := reg_lt rt
  have hi := imm_lt imm
  simp only [ITypeBits, bits, encodeI_toNat]
  omega

theorem jTypeBits_encodeJ (opcode : BitVec 6) (target : Target) :
    JTypeBits (encodeJ opcode target) opcode.toNat target := by
  have ho := opcode.isLt
  have ht := target_lt target
  simp only [JTypeBits, bits, encodeJ_toNat]
  omega

/-- The shift word 0 is the one that well-formedness leaves to NOP (R61). -/
theorem encode_sll_ne_zero {rd rt rs : Reg} {shamt : Shamt} (h : (Instr.sll rd rt shamt rs).wf = true) :
    encode (.sll rd rt shamt rs) ≠ 0 := by
  intro h0
  have hbits : RTypeBits (encode (.sll rd rt shamt rs)) 0 rd rs rt shamt := rTypeBits_encodeR ..
  rw [h0] at hbits
  obtain ⟨-, -, rfl, rfl, rfl, rfl⟩ := rTypeBits_iff.mp hbits
  exact absurd h (by decide)

theorem spells_encode {i : Instr} {v : Word} (hwf : i.wf = true) (hv : i = .halt → v = Config.haltCode) :
    Spells (encode i) v i := by
  cases i with
  | halt => exact ⟨rfl, hv rfl⟩
  | nop => exact rfl
  | sll => exact ⟨encode_sll_ne_zero hwf, rTypeBits_encodeR ..⟩
  | add | and | nor | or | slt | sra | srl | sub => exact rTypeBits_encodeR ..
  | addi | andi | ori | lw | sw | beq | bne => exact iTypeBits_encodeI ..
  | j | jal => exact jTypeBits_encodeJ ..

/-- Settles O1: the word of a well-formed instruction spells it, and the decoder answers what a word spells. -/
theorem decodeAfterEncodeIsIdentity : Obligations.DecodeAfterEncodeIsIdentity :=
  fun _ _ hwf hv => decode_of_spells (spells_encode hwf hv)

/-! ## Words outside the maps (R58 to R60, R62, R64) -/

theorem decodeFunct_error_iff (w : Word) :
    (∃ e, decodeFunct w = .error e) ↔ (functField w).toNat ∉ [0, 2, 3, 32, 34, 36, 37, 39, 42] := by
  unfold decodeFunct
  split
  case h_10 => simp_all
  all_goals simp [*]

theorem decodeOpcode_error_iff (w : Word) :
    (∃ e, decodeOpcode w = .error e) ↔ (opcodeField w).toNat ∉ [2, 3, 4, 5, 8, 12, 13, 35, 43] := by
  unfold decodeOpcode
  split
  case h_10 => simp_all
  all_goals simp [*]

/-- Settles O5: past the halt and NOP rows the opcode chooses the map, and each map answers exactly its own values. -/
theorem unsupportedExactlyOutsideTheMaps : Obligations.UnsupportedExactlyOutsideTheMaps := by
  intro w v h0 hh
  rw [bits_opcode, bits_funct]
  split
  · next hop => rw [decode_eq_decodeFunct v hop h0 hh, decodeFunct_error_iff]
  · next hop => rw [decode_eq_decodeOpcode v hop, decodeOpcode_error_iff]

/-- Settles O7: the value 10 is in neither map, and neither NOP nor the halt word has it. -/
theorem opcodeTenAndFunctTenAreUnsupported : Obligations.OpcodeTenAndFunctTenAreUnsupported := by
  intro w v h
  have h0 : w ≠ 0 := by
    rintro rfl
    exact absurd h (by decide)
  have hh : ¬(w = 0x0000000C ∧ v = 10) := by
    rintro ⟨rfl, -⟩
    exact absurd h (by decide)
  refine (unsupportedExactlyOutsideTheMaps w v h0 hh).mpr ?_
  rcases h with hop | ⟨hop, hfn⟩
  · simp [hop]
  · simp [hop, hfn]

theorem decodeFunct_of_funct_twelve {w : Word} (h : (functField w).toNat = 12) :
    decodeFunct w = .error (.funct 12) := by
  have hfn : functField w = 12 := BitVec.eq_of_toNat_eq h
  simp only [decodeFunct, hfn]
  rfl

/-- Settles O6: `halt` is spelled by the whole word and the register, and funct 12 is in no other row. -/
theorem haltWordNeedsTenInRegisterTwo : Obligations.HaltWordNeedsTenInRegisterTwo := by
  refine ⟨fun w v => decodeReadsExactlyTheBitsOfTheWord w v .halt, fun w v hop hfn hh => ?_,
    fun w v u hw => decode_congr_of_ne_haltWord hw v u⟩
  have h0 : w ≠ 0 := by
    rintro rfl
    exact absurd hfn (by decide)
  rw [bits_opcode] at hop
  rw [bits_funct] at hfn
  rw [decode_eq_decodeFunct v hop h0 hh, decodeFunct_of_funct_twelve hfn]

/-! ## The rows of the opcode table -/

theorem and_functMask_of_rTypeBits {w m : Word} {rd rs rt : Reg} {shamt : Shamt}
    (h : RTypeBits w m.toNat rd rs rt shamt) : w &&& 0xFC00003F = m := by
  obtain ⟨hop, hfn, -⟩ := rTypeBits_iff.mp h
  rw [opcodeField_toNat] at hop
  rw [functField_toNat] at hfn
  apply BitVec.eq_of_toNat_eq
  rw [and_functMask, hop, hfn, Nat.zero_mul, Nat.zero_add]

theorem and_opcodeMask_of_opcode {w m : Word} {opcode : Nat} (h : bits w 26 6 = opcode)
    (hm : opcode * 2 ^ 26 = m.toNat) : w &&& 0xFC000000 = m := by
  rw [bits_opcode, opcodeField_toNat] at h
  apply BitVec.eq_of_toNat_eq
  rw [and_opcodeMask, h, hm]

/-- Settles O8: the bits that a row's mask keeps are the opcode and funct that spell the row's instruction. -/
theorem decodedWordMatchesItsTableRow : Obligations.DecodedWordMatchesItsTableRow := by
  intro w v i h
  have hbits := spells_of_decode h
  cases i with
  | halt =>
    obtain ⟨rfl, -⟩ := hbits
    rfl
  | nop =>
    cases hbits
    rfl
  | sll => exact and_functMask_of_rTypeBits hbits.2
  | add | and | nor | or | slt | sra | srl | sub => exact and_functMask_of_rTypeBits hbits
  | addi | andi | ori | lw | sw | beq | bne | j | jal => exact and_opcodeMask_of_opcode hbits.1 rfl

/-- Settles O9, by evaluating the decoder on the twelve words. -/
theorem specWordsDecodeToTheirInstructions : Obligations.SpecWordsDecodeToTheirInstructions := by
  unfold Obligations.SpecWordsDecodeToTheirInstructions
  decide

end Sys2Proof.Proofs
end

section
/-! Branches: the words of `beq` and `bne`, the nominal target of a taken branch, and where the step lands (R54, R88 to
R90). -/

namespace Sys2Proof.Proofs

open Sys2Proof.Machine Sys2Proof.Claims

/-! ## The words of `beq` and `bne` (R58) -/

theorem decodeOpcode_beq {w : Word} (h : (opcodeField w).toNat = 4) :
    decodeOpcode w = .ok (.beq (rsField w) (rtField w) (immField w)) := by
  simp only [decodeOpcode, h]

theorem decodeOpcode_bne {w : Word} (h : (opcodeField w).toNat = 5) :
    decodeOpcode w = .ok (.bne (rsField w) (rtField w) (immField w)) := by
  simp only [decodeOpcode, h]

/-! ## Taken and not taken (R89, R90) -/

theorem exec_beq (rs rt : Reg) (imm : Imm) (s : State) :
    exec (.beq rs rt imm) s = .next (if s.readReg rs = s.readReg rt then s.setPc (branchTarget imm s) else s) := rfl

theorem exec_bne (rs rt : Reg) (imm : Imm) (s : State) :
    exec (.bne rs rt imm) s = .next (if s.readReg rs ≠ s.readReg rt then s.setPc (branchTarget imm s) else s) := rfl

section
variable {mk : Reg → Reg → Imm → Instr} {taken : Word → Word → Prop} [∀ a b, Decidable (taken a b)]
  (hexec : ∀ rs rt imm s, exec (mk rs rt imm) s =
    .next (if taken (s.readReg rs) (s.readReg rt) then s.setPc (branchTarget imm s) else s))
include hexec

theorem branchResult_of_exec : BranchResult mk taken := by
  refine fun rs rt imm s => ⟨fun h => ?_, fun h => ?_⟩
  · exact ⟨s.setPc (branchTarget imm s), by rw [hexec, if_pos h], branchTarget_toNat imm s, onlyPc_setPc ..⟩
  · rw [hexec, if_neg h]

/-- The target of a branch that a step runs needs no reduction (R18; log entry 14). -/
theorem lands_of_branch {s : State} {rs rt : Reg} {imm : Imm} (h : RunsInstr s (mk rs rt imm)) :
    Lands s (if taken (s.readReg rs) (s.readReg rt) then s.pc.toNat + 4 * imm.toNat + 1 else s.pc.toNat + 1) := by
  have hrun := hexec rs rt imm s
  split at hrun
  · next htaken =>
    have hland := lands_of_exec h hrun h.running h.flag
    have hpc : s.pc.toNat < 4096 := h.pc_lt
    have himm := imm_lt imm
    rw [if_pos htaken]
    rwa [setPc_pc, branchTarget_toNat, Nat.mod_eq_of_lt (by omega)] at hland
  · next htaken =>
    rw [if_neg htaken]
    exact lands_of_exec h hrun h.running h.flag

end

/-- Settles O23: opcodes 4 and 5 select the branches, whose effects differ in the condition alone. -/
theorem beqAndBneAddTheShiftedImmediateWhenTaken : Obligations.BeqAndBneAddTheShiftedImmediateWhenTaken := by
  refine ⟨iTypeRow_of_decodeOpcode (by decide) fun _ => decodeOpcode_beq, ?_, fun s rs rt imm h => ?_,
    iTypeRow_of_decodeOpcode (by decide) fun _ => decodeOpcode_bne, ?_, fun s rs rt imm h => ?_⟩
  · simp only [BitVec.toNat_inj]
    exact branchResult_of_exec exec_beq
  · exact lands_of_branch exec_beq h
  · simp only [ne_eq, BitVec.toNat_inj]
    exact branchResult_of_exec exec_bne
  · exact lands_of_branch exec_bne h

end Sys2Proof.Proofs
end

section
/-! The fields an instruction ignores (R56): words that differ in them alone run the same effect, and an effect does not
depend on instruction memory. -/

namespace Sys2Proof.Proofs

open Sys2Proof.Machine Sys2Proof.Claims

/-! ## A step does not depend on the image of instruction memory, beyond the word it fetches (R24, R47) -/

/-- No instruction reads or writes instruction memory. -/
theorem exec_writeInstr (i : Instr) (s : State) (k : Nat) (w : Word) :
    exec i (s.writeInstr k w) = mapNext (fun t => t.writeInstr k w) (exec i s) := by
  cases i with
  | lw | sw => exact .symm (apply_ite (mapNext fun t => t.writeInstr k w) ..)
  | beq | bne => exact .symm (congrArg Host.Outcome.next (apply_ite (fun t => State.writeInstr t k w) ..))
  | _ => rfl

theorem finishStep_writeInstr (s : State) (k : Nat) (w : Word) :
    (s.writeInstr k w).finishStep = s.finishStep.writeInstr k w := by
  unfold State.finishStep
  rw [writeInstr_status]
  split <;> rfl

theorem steps_writeInstr {s : State} (h : Steps s) (k : Nat) (w : Word) : Steps (s.writeInstr k w) :=
  ⟨h.running, h.flag, h.pc_lt⟩

/-- A word placed at `pc` that decodes runs its instruction's effect on the state it was placed in. -/
theorem step_writeInstr_pc {s t : State} {w : Word} {i : Instr} (hwf : Memory.wf Config.imemWords s.imem) (hs : Steps s)
    (hd : decode w (s.readReg Config.haltReg) = .ok i) (ht : exec i s = .next t) :
    step (s.writeInstr s.pc.toNat w) = .next (t.finishStep.writeInstr s.pc.toNat w) := by
  have hruns : RunsInstr (s.writeInstr s.pc.toNat w) i := by
    refine ⟨steps_writeInstr hs _ w, ?_⟩
    rw [writeInstr_pc, readInstr_writeInstr_same hwf, writeInstr_readReg, hd]
  rw [step_of_exec hruns (by rw [exec_writeInstr, ht]; rfl), finishStep_writeInstr]

theorem agreeButInstr_writeInstr (s : State) (k : Nat) (w w' : Word) :
    AgreeButInstr (s.writeInstr k w) (s.writeInstr k w') :=
  ⟨fun _ => rfl, rfl, fun _ => rfl, rfl, rfl, rfl⟩

/-! ## Words that differ in an ignored field alone (R56) -/

/-- Words that agree under a mask agree in every field that the mask keeps. -/
theorem extractLsb'_eq_of_and_eq {w w' m : Word} {lo n : Nat} (h : w &&& m = w' &&& m)
    (hm : m.extractLsb' lo n = BitVec.allOnes n) : w.extractLsb' lo n = w'.extractLsb' lo n := by
  have hand := congrArg (BitVec.extractLsb' lo n) h
  rwa [BitVec.extractLsb'_and, BitVec.extractLsb'_and, hm, BitVec.and_allOnes, BitVec.and_allOnes] at hand

theorem regField_eq_of_and_eq {w w' m : Word} {lo : Nat} (h : w &&& m = w' &&& m)
    (hm : m.extractLsb' lo 5 = BitVec.allOnes 5) : regField w lo = regField w' lo := by
  rw [regField, extractLsb'_eq_of_and_eq h hm, regField]

/-- NOP has the effect of the shift that its word would be (R61, R70). -/
theorem exec_sll_zero (rs : Reg) : exec (.sll 0 0 0 rs) = exec .nop := by
  funext s
  change Host.Outcome.next (s.writeReg 0 (s.readReg 0 <<< 0)) = .next s
  rw [BitVec.shiftLeft_zero, writeReg_readReg_self]

/-- A word of opcode 0 that `decodeFunct` reads runs that effect, NOP's word included. -/
theorem exists_decode_of_decodeFunct {w : Word} {j : Instr} (v : Word) (hop : (opcodeField w).toNat = 0)
    (h : decodeFunct w = .ok j) : ∃ i, decode w v = .ok i ∧ exec i = exec j := by
  by_cases h0 : w = 0
  · subst h0
    cases h
    exact ⟨.nop, decode_zero v, (exec_sll_zero 0).symm⟩
  · refine ⟨j, ?_, rfl⟩
    rw [decode_eq_decodeFunct v hop h0 ?_, h]
    rintro ⟨rfl, -⟩
    cases h

/-- The map of R59 reads both words, as instructions of one effect. -/
def SameFunctEffect (w w' : Word) : Prop :=
  ∃ j j', decodeFunct w = .ok j ∧ decodeFunct w' = .ok j' ∧ exec j = exec j'

/-- No R-type ALU operation reads `shamt`. -/
theorem sameFunctEffect_of_agree_but_shamt {w w' : Word} (h : (functField w).toNat ∈ [32, 34, 36, 37, 39, 42])
    (heq : w &&& 0xFFFFF83F = w' &&& 0xFFFFF83F) : SameFunctEffect w w' := by
  have hfn : functField w = functField w' := extractLsb'_eq_of_and_eq heq (by decide)
  have hrs : rsField w = rsField w' := regField_eq_of_and_eq heq (by decide)
  have hrt : rtField w = rtField w' := regField_eq_of_and_eq heq (by decide)
  have hrd : rdField w = rdField w' := regField_eq_of_and_eq heq (by decide)
  simp only [List.mem_cons, List.not_mem_nil, or_false] at h
  unfold SameFunctEffect decodeFunct
  rw [hrs, hrt, hrd, ← hfn]
  rcases h with h | h | h | h | h | h <;> rw [h] <;> exact ⟨_, _, rfl, rfl, rfl⟩

/-- No shift reads `rs`. -/
theorem sameFunctEffect_of_agree_but_rs {w w' : Word} (h : (functField w).toNat ∈ [0, 2, 3])
    (heq : w &&& 0xFC1FFFFF = w' &&& 0xFC1FFFFF) : SameFunctEffect w w' := by
  have hfn : functField w = functField w' := extractLsb'_eq_of_and_eq heq (by decide)
  have hrt : rtField w = rtField w' := regField_eq_of_and_eq heq (by decide)
  have hrd : rdField w = rdField w' := regField_eq_of_and_eq heq (by decide)
  have hshamt : shamtField w = shamtField w' := congrArg BitVec.toFin (extractLsb'_eq_of_and_eq heq (by decide))
  simp only [List.mem_cons, List.not_mem_nil, or_false] at h
  unfold SameFunctEffect decodeFunct
  rw [hrt, hrd, hshamt, ← hfn]
  rcases h with h | h | h <;> rw [h] <;> exact ⟨_, _, rfl, rfl, rfl⟩

/-- Settles O43: the two words decode to one effect, and neither that effect nor the loop reads the placed word. -/
theorem ignoredFieldsMakeNoDifference : Obligations.IgnoredFieldsMakeNoDifference := by
  intro s w w' hwf hs hop h
  rw [bits_opcode] at hop
  rw [bits_funct] at h
  obtain ⟨hop', j, j', hj, hj', hjj'⟩ : opcodeField w = opcodeField w' ∧ SameFunctEffect w w' := by
    rcases h with ⟨hfn, heq⟩ | ⟨hfn, heq⟩
    · exact ⟨extractLsb'_eq_of_and_eq heq (by decide), sameFunctEffect_of_agree_but_shamt hfn heq⟩
    · exact ⟨extractLsb'_eq_of_and_eq heq (by decide), sameFunctEffect_of_agree_but_rs hfn heq⟩
  obtain ⟨i, hd, hi⟩ := exists_decode_of_decodeFunct (s.readReg Config.haltReg) hop hj
  obtain ⟨i', hd', hi'⟩ := exists_decode_of_decodeFunct (s.readReg Config.haltReg) (hop' ▸ hop) hj'
  obtain ⟨t, ht, -⟩ := exec_effect i s
  have ht' : exec i' s = .next t := by rw [hi', ← hjj', ← hi, ht]
  exact ⟨_, _, step_writeInstr_pc hwf hs hd ht, step_writeInstr_pc hwf hs hd' ht', agreeButInstr_writeInstr ..⟩

end Sys2Proof.Proofs
end

section
/-! The instruction `nop`: its step, and the run through zero words to the end of instruction memory (R61, R70, R100). -/

namespace Sys2Proof.Proofs

open Sys2Proof.Machine Sys2Proof.Claims

theorem exec_nop (s : State) : exec .nop s = .next s := rfl

theorem runsInstr_nop {s : State} (h : Steps s) (hw : s.readInstr s.pc.toNat = 0) : RunsInstr s .nop :=
  ⟨h, by rw [hw, decode_zero]⟩

/-- The loop's part of a step, after an instruction with no effect. -/
theorem finishStep_of_steps {s : State} (h : Steps s) :
    s.finishStep = { s with pc := s.pc + 1, status := statusAt (s.pc.toNat + 1) } := by
  have hpc : s.pc.toNat < 4096 := h.pc_lt
  rw [finishStep_of_running h.running, h.flag, stopStatus_true, pc_add_loopIncrement_toNat (by omega)]

theorem step_zeroWord {s : State} (h : Steps s) (hw : s.readInstr s.pc.toNat = 0) :
    step s = .next { s with pc := s.pc + 1, status := statusAt (s.pc.toNat + 1) } := by
  rw [step_of_exec (runsInstr_nop h hw) (exec_nop s), finishStep_of_steps h]

/-- Before the last index the status stays RUNNING, so `pc` is all that a zero word's step changes. -/
theorem step_zeroWord_of_lt {s : State} (h : Steps s) (hw : s.readInstr s.pc.toNat = 0) (hlt : s.pc.toNat + 1 < 4096) :
    step s = .next (s.setPc (s.pc + 1)) := by
  rw [step_zeroWord h hw, statusAt, if_neg (by omega), ← h.running]
  rfl

/-- At the last index a zero word's step stops the core. -/
theorem step_zeroWord_of_last {s : State} (h : Steps s) (hw : s.readInstr s.pc.toNat = 0)
    (hlast : s.pc.toNat + 1 = 4096) :
    step s = .next { s with pc := 4096, status := .neverTerminated } := by
  have hend : s.pc + 1 = 4096 := BitVec.eq_of_toNat_eq ((pc_add_loopIncrement_toNat (by omega)).trans hlast)
  rw [step_zeroWord h hw, hend, hlast]
  rfl

/-- The run through the last `k + 1` words of instruction memory, when all of them are 0. -/
theorem run_zeroWords (k : Nat) {s : State} (h : Steps s) (hk : s.pc.toNat + (k + 1) = 4096)
    (hw : ∀ i, s.pc.toNat ≤ i → i < 4096 → s.readInstr i = 0) :
    core.run (k + 1) s = .next { s with pc := 4096, status := .neverTerminated } := by
  induction k generalizing s with
  | zero => rw [run_succ (step_zeroWord_of_last h (hw _ le_rfl (by omega)) hk), run_zero]
  | succ k ih =>
    have hnext : (s.pc + 1).toNat = s.pc.toNat + 1 := pc_add_loopIncrement_toNat (by omega)
    have hlt : (s.pc + 1).toNat < 4096 := by omega
    have hsteps : Steps (s.setPc (s.pc + 1)) := ⟨h.running, h.flag, hlt⟩
    have hzero : ∀ i, (s.pc + 1).toNat ≤ i → i < 4096 → s.readInstr i = 0 := fun i hi => hw i (by omega)
    rw [run_succ (step_zeroWord_of_lt h (hw _ le_rfl (by omega)) (by omega)),
      ih hsteps (by rw [setPc_pc]; omega) hzero]
    rfl

/-- Settles O27: word 0 decodes to `nop`, which leaves the step to the loop; the run through zero words is an induction
over their number. -/
theorem nopOnlyAdvancesPc : Obligations.NopOnlyAdvancesPc := by
  refine ⟨fun s => ⟨exec_nop s, fun rs => ?_⟩, fun s h hw => step_zeroWord h hw, fun s h hw => ?_⟩
  · rw [exec_sll_zero, exec_nop]
  · have hpc : s.pc.toNat < 4096 := h.pc_lt
    obtain ⟨k, hk⟩ : ∃ k, 4096 - s.pc.toNat = k + 1 := ⟨4095 - s.pc.toNat, by omega⟩
    rw [hk]
    exact run_zeroWords k h (by omega) hw

end Sys2Proof.Proofs
end

section
/-! The R-type operations of spec/41_rtype_alu.md other than `slt`: what a word that matches a row of opcode 0 spells, and
the results of `writeRegReg` and `writeShift` as numbers (R71 to R75, R77 to R80). -/

namespace Sys2Proof.Proofs

open Sys2Proof.Machine Sys2Proof.Claims

/-! ## Words that match a row of opcode 0 (R58, R59) -/

/-- A word that matches a row of opcode 0 has the bits of the row, and its own fields as operands. -/
theorem rTypeBits_of_functRow {w m : Word} (h : w &&& 0xFC00003F = m) (hm : m.toNat < 64) :
    RTypeBits w m.toNat (rdField w) (rsField w) (rtField w) (shamtField w) := by
  obtain ⟨hop, hfn⟩ := opcode_funct_of_functRow h hm
  exact rTypeBits_iff.mpr ⟨(opcodeField_toNat w).trans hop, hfn, rfl, rfl, rfl, rfl⟩

/-! ## The meanings (R72 to R75, R77 to R80) -/

theorem exec_add (rd rs rt : Reg) (shamt : Shamt) (s : State) :
    exec (.add rd rs rt shamt) s = .next (writeRegReg (fun a b => a + b) rd rs rt s) := rfl

theorem exec_sub (rd rs rt : Reg) (shamt : Shamt) (s : State) :
    exec (.sub rd rs rt shamt) s = .next (writeRegReg (fun a b => a - b) rd rs rt s) := rfl

theorem exec_and (rd rs rt : Reg) (shamt : Shamt) (s : State) :
    exec (.and rd rs rt shamt) s = .next (writeRegReg (fun a b => a &&& b) rd rs rt s) := rfl

theorem exec_or (rd rs rt : Reg) (shamt : Shamt) (s : State) :
    exec (.or rd rs rt shamt) s = .next (writeRegReg (fun a b => a ||| b) rd rs rt s) := rfl

theorem exec_nor (rd rs rt : Reg) (shamt : Shamt) (s : State) :
    exec (.nor rd rs rt shamt) s = .next (writeRegReg (fun a b => ~~~(a ||| b)) rd rs rt s) := rfl

theorem exec_sll (rd rt : Reg) (shamt : Shamt) (rs : Reg) (s : State) :
    exec (.sll rd rt shamt rs) s = .next (writeShift (fun b n => b <<< n) rd rt shamt s) := rfl

theorem exec_sra (rd rt : Reg) (shamt : Shamt) (rs : Reg) (s : State) :
    exec (.sra rd rt shamt rs) s = .next (writeShift (fun b n => b >>> n) rd rt shamt s) := rfl

theorem exec_srl (rd rt : Reg) (shamt : Shamt) (rs : Reg) (s : State) :
    exec (.srl rd rt shamt rs) s = .next (writeShift (fun b n => b >>> n) rd rt shamt s) := rfl

/-! ## Results as numbers -/

/-- An instruction whose meaning is `writeShift f` has the result that `f` has on numbers. -/
theorem shiftResult_of_writeShift {mk : Reg → Reg → Shamt → Reg → Instr} {f : Word → Nat → Word}
    {value : Nat → Nat → Nat}
    (hexec : ∀ rd rt shamt rs s, exec (mk rd rt shamt rs) s = .next (writeShift f rd rt shamt s))
    (hf : ∀ b n, (f b n).toNat = value b.toNat n) : ShiftResult mk value := by
  intro rd rt shamt rs s
  refine ⟨_, hexec rd rt shamt rs s, ?_, onlyReg_writeReg ..⟩
  rw [writeShift, readReg_writeReg_same, hf]

/-- Subtraction of words is the exact difference, reduced. -/
theorem toNat_sub_word (a b : Word) : (a - b).toNat = (((a.toNat : Int) - b.toNat) % 2 ^ 32).toNat := by
  have ha := word_lt a
  have hb := word_lt b
  rw [BitVec.toNat_sub, two_pow_xlen]
  omega

theorem toNat_nor_word (a b : Word) : (~~~(a ||| b)).toNat = (2 ^ 32 - 1) - (a.toNat ||| b.toNat) := by
  rw [BitVec.toNat_not, BitVec.toNat_or]

theorem toNat_shiftLeft_word (b : Word) (n : Nat) : (b <<< n).toNat = b.toNat * 2 ^ n % 2 ^ 32 := by
  rw [BitVec.toNat_shiftLeft, Nat.shiftLeft_eq]

theorem toNat_ushiftRight_word (b : Word) (n : Nat) : (b >>> n).toNat = b.toNat / 2 ^ n := by
  rw [BitVec.toNat_ushiftRight, Nat.shiftRight_eq_div_pow]

/-- Settles O15: functs 32 and 34 spell `add` and `sub`, and the arithmetic of words reduces the exact result. -/
theorem addAndSubWrapModulo2Pow32 : Obligations.AddAndSubWrapModulo2Pow32 :=
  ⟨fun _ _ h => decode_of_spells (rTypeBits_of_functRow h (by decide)),
    rTypeResult_of_writeRegReg exec_add BitVec.toNat_add,
    fun _ _ h => decode_of_spells (rTypeBits_of_functRow h (by decide)),
    rTypeResult_of_writeRegReg exec_sub toNat_sub_word⟩

/-- Settles O16: functs 36, 37 and 39 spell the three, and complementing a word takes it from 2^32 - 1. -/
theorem andOrNorAreBitwise : Obligations.AndOrNorAreBitwise :=
  ⟨fun _ _ h => decode_of_spells (rTypeBits_of_functRow h (by decide)),
    rTypeResult_of_writeRegReg exec_and BitVec.toNat_and,
    fun _ _ h => decode_of_spells (rTypeBits_of_functRow h (by decide)),
    rTypeResult_of_writeRegReg exec_or BitVec.toNat_or,
    fun _ _ h => decode_of_spells (rTypeBits_of_functRow h (by decide)),
    rTypeResult_of_writeRegReg exec_nor toNat_nor_word⟩

/-- Settles O18: functs 0, 3 and 2 spell the shifts, word 0 aside, and shifting a word multiplies or divides it. -/
theorem shiftsMultiplyAndDivideByPowersOfTwo : Obligations.ShiftsMultiplyAndDivideByPowersOfTwo :=
  ⟨fun _ _ h h0 => decode_of_spells ⟨h0, rTypeBits_of_functRow h (by decide)⟩,
    shiftResult_of_writeShift exec_sll toNat_shiftLeft_word,
    fun _ _ h _ => decode_of_spells (rTypeBits_of_functRow h (by decide)),
    shiftResult_of_writeShift exec_sra toNat_ushiftRight_word,
    fun _ _ h _ => decode_of_spells (rTypeBits_of_functRow h (by decide)),
    shiftResult_of_writeShift exec_srl toNat_ushiftRight_word⟩

end Sys2Proof.Proofs
end

section
/-! The registers an instruction does not read (R16, R71, R81): a write to one of them before the instruction is
overwritten by it, or comes to the same write after it. -/

namespace Sys2Proof.Proofs

open Sys2Proof.Machine Sys2Proof.Claims

/-! ## Two register writes -/

theorem writeReg_writeReg_same (s : State) (r : Reg) (v w : Word) : (s.writeReg r v).writeReg r w = s.writeReg r w := by
  simp only [State.writeReg, Vector.set_set]

theorem writeReg_writeReg_comm (s : State) {q r : Reg} (v w : Word) (h : r ≠ q) :
    (s.writeReg q v).writeReg r w = (s.writeReg r w).writeReg q v := by
  have hval : q.val ≠ r.val := fun e => h (Fin.ext e.symm)
  simp only [State.writeReg, Vector.set_comm _ _ hval]

/-! ## A register that is not read -/

/-- With `t` the state that `i` makes: what it makes when register `q` was set to `v` before it. -/
inductive MadeUnread (i : Instr) (q : Reg) (v : Word) (t : State) : State → Prop where
  /-- `i` overwrote `q`. -/
  | overwritten : MadeUnread i q v t t
  /-- `i` left `q` alone: it is not its destination, or `i` faulted. -/
  | kept (h : destination i = some q → ∃ pc ea op, t.status = .faultOob pc ea op) : MadeUnread i q v t (t.writeReg q v)

/-- An instruction that writes its destination with a value that `q` does not enter. -/
theorem madeUnread_writeReg {i : Instr} {q r : Reg} {v w w' : Word} {s : State} (hd : destination i = some r)
    (hw : w' = w) : MadeUnread i q v (s.writeReg r w) ((s.writeReg q v).writeReg r w') := by
  subst hw
  by_cases hrq : r = q
  · subst hrq
    rw [writeReg_writeReg_same]
    exact .overwritten
  · rw [writeReg_writeReg_comm s v w' hrq]
    exact .kept fun h => absurd (Option.some.inj (hd.symm.trans h)) hrq

/-- The operands, the effective address and the condition of a branch come from the sources, so none of them sees a write
to another register. -/
theorem exec_madeUnread {i : Instr} (s : State) {q : Reg} (v : Word) (hq : q ∉ sources i) :
    ∃ t u, exec i s = .next t ∧ exec i (s.writeReg q v) = .next u ∧ MadeUnread i q v t u := by
  have hread : ∀ r ∈ sources i, (s.writeReg q v).readReg r = s.readReg r :=
    fun r hr => readReg_writeReg_ne s v (ne_of_mem_of_not_mem hr hq)
  have hea : ∀ r ∈ sources i, ∀ imm, effectiveAddress r imm (s.writeReg q v) = effectiveAddress r imm s :=
    fun r hr => effectiveAddress_congr (hread r hr)
  cases i with
  | halt | nop | j => exact ⟨_, _, rfl, rfl, .kept nofun⟩
  | add rd rs rt | and rd rs rt | nor rd rs rt | or rd rs rt | slt rd rs rt | sub rd rs rt =>
    have hrs := hread rs (by simp [sources])
    have hrt := hread rt (by simp [sources])
    exact ⟨_, _, rfl, rfl, madeUnread_writeReg rfl (by rw [hrs, hrt])⟩
  | sll rd rt | sra rd rt | srl rd rt =>
    have hrt := hread rt (by simp [sources])
    exact ⟨_, _, rfl, rfl, madeUnread_writeReg rfl (by rw [hrt])⟩
  | addi rt rs | andi rt rs | ori rt rs =>
    have hrs := hread rs (by simp [sources])
    exact ⟨_, _, rfl, rfl, madeUnread_writeReg rfl (by rw [hrs])⟩
  | lw rt rs imm =>
    have ha := hea rs (by simp [sources]) imm
    by_cases hin : (effectiveAddress rs imm s).toNat < Config.dmemWords
    · exact ⟨_, _, exec_lw_inside hin, exec_lw_inside (ha ▸ hin), madeUnread_writeReg rfl (by rw [ha, writeReg_readData])⟩
    · have hout := not_lt.mp hin
      refine ⟨_, _, exec_lw_outside hout, exec_lw_outside (ha ▸ hout), ?_⟩
      rw [ha]
      exact .kept fun _ => ⟨_, _, _, rfl⟩
  | sw rt rs imm =>
    have ha := hea rs (by simp [sources]) imm
    by_cases hin : (effectiveAddress rs imm s).toNat < Config.dmemWords
    · refine ⟨_, _, exec_sw_inside hin, exec_sw_inside (ha ▸ hin), ?_⟩
      rw [ha, hread rt (by simp [sources])]
      exact .kept nofun
    · have hout := not_lt.mp hin
      refine ⟨_, _, exec_sw_outside hout, exec_sw_outside (ha ▸ hout), ?_⟩
      rw [ha]
      exact .kept nofun
  | beq rs rt | bne rs rt =>
    refine ⟨_, _, rfl, rfl, ?_⟩
    rw [hread rs (by simp [sources]), hread rt (by simp [sources])]
    split <;> exact .kept nofun
  | jal target =>
    exact ⟨_, _, exec_jal target s, exec_jal target _, madeUnread_writeReg (s := s.setPc (jumpTarget target)) rfl rfl⟩

/-- Settles O28: the two states are equal, or one is the other with `q` set, and then `q` was not written. -/
theorem instructionReadsOnlyItsSources : Obligations.InstructionReadsOnlyItsSources := by
  intro i s q v hq
  obtain ⟨t, u, ht, hu, hmade⟩ := exec_madeUnread s v hq
  refine ⟨t, u, ht, hu, ?_⟩
  cases hmade with
  | overwritten => exact ⟨rfl, fun _ => rfl, fun _ => rfl, ⟨rfl, rfl, rfl⟩, fun _ _ => rfl⟩
  | kept hkept =>
    refine ⟨rfl, fun _ => rfl, fun _ => rfl, ⟨rfl, rfl, rfl⟩, fun p hp => readReg_writeReg_ne t v ?_⟩
    rcases hp with hpq | ⟨hd, hno⟩
    · exact hpq
    · obtain ⟨pc, ea, op, hfault⟩ := hkept hd
      exact absurd hfault (hno pc ea op)

end Sys2Proof.Proofs
end

section
/-! The I-type operations of spec/42_itype_alu.md: what a word that matches an I-type row spells, and the results of
`writeRegImm` as numbers (R81, R82, R84, R85). -/

namespace Sys2Proof.Proofs

open Sys2Proof.Machine Sys2Proof.Claims

/-! ## Words that match an I-type row (R52, R58) -/

/-- A word that matches an I-type row has the row's opcode, and its own fields as operands. -/
theorem iTypeBits_of_opcodeRow {w m : Word} (h : w &&& 0xFC000000 = m) :
    ITypeBits w (m.toNat / 2 ^ 26) (rsField w) (rtField w) (immField w) := by
  have hop : (opcodeField w).toNat = m.toNat / 2 ^ 26 := by
    rw [opcodeField_toNat, ← h, and_opcodeMask, Nat.mul_div_cancel _ (Nat.two_pow_pos 26)]
  exact iTypeBits_iff.mpr ⟨hop, rfl, rfl, rfl⟩

/-! ## Register-immediate results (R81) -/

theorem exec_addi (rt rs : Reg) (imm : Imm) (s : State) :
    exec (.addi rt rs imm) s = .next (writeRegImm (fun a b => a + b) rt rs imm s) := rfl

theorem exec_andi (rt rs : Reg) (imm : Imm) (s : State) :
    exec (.andi rt rs imm) s = .next (writeRegImm (fun a b => a &&& b) rt rs imm s) := rfl

theorem exec_ori (rt rs : Reg) (imm : Imm) (s : State) :
    exec (.ori rt rs imm) s = .next (writeRegImm (fun a b => a ||| b) rt rs imm s) := rfl

/-- An instruction whose meaning is `writeRegImm f` has the result that `f` has on numbers: extending the immediate with
zeros keeps its number (R53). -/
theorem immResult_of_writeRegImm {mk : Reg → Reg → Imm → Instr} {f : Word → Word → Word} {value : Nat → Nat → Nat}
    (hexec : ∀ rt rs imm s, exec (mk rt rs imm) s = .next (writeRegImm f rt rs imm s))
    (hf : ∀ a b, (f a b).toNat = value a.toNat b.toNat) : ImmResult mk value := by
  intro rt rs imm s
  refine ⟨_, hexec rt rs imm s, ?_, onlyReg_writeReg ..⟩
  rw [writeRegImm, readReg_writeReg_same, hf, zextImm_toNat]

/-- Settles O19: opcode 8 spells `addi`, and the addition of words reduces the sum. -/
theorem addiAddsTheZeroExtendedImmediate : Obligations.AddiAddsTheZeroExtendedImmediate :=
  ⟨fun _ _ h => decode_of_spells (iTypeBits_of_opcodeRow h),
    immResult_of_writeRegImm exec_addi BitVec.toNat_add⟩

/-- Settles O20: opcodes 12 and 13 spell `andi` and `ori`, and the bitwise operations of words are those of their numbers. -/
theorem andiAndOriUseTheZeroExtendedImmediate : Obligations.AndiAndOriUseTheZeroExtendedImmediate :=
  ⟨fun _ _ h => decode_of_spells (iTypeBits_of_opcodeRow h),
    immResult_of_writeRegImm exec_andi BitVec.toNat_and,
    fun _ _ h => decode_of_spells (iTypeBits_of_opcodeRow h),
    immResult_of_writeRegImm exec_ori BitVec.toNat_or⟩

end Sys2Proof.Proofs
end

section
/-! The control transfers of spec/44_control.md beyond the branches and `jal`: the word and the step of `j`, which
transfers go backward, and the host's window, which the loop increment keeps closed (R91, R95, R98, R108). -/

namespace Sys2Proof.Proofs

open Sys2Proof.Machine Sys2Proof.Claims

/-! ## `j` (R91) -/

theorem decodeOpcode_j {w : Word} (h : (opcodeField w).toNat = 2) : decodeOpcode w = .ok (.j (targetField w)) := by
  simp only [decodeOpcode, h]

theorem exec_j (target : Target) (s : State) : exec (.j target) s = .next (s.setPc (jumpTarget target)) := rfl

theorem lands_j {s : State} {target : Target} (h : RunsInstr s (.j target)) : Lands s (target.toNat + 1) := by
  have hland := lands_of_exec h (exec_j target s) h.running h.flag
  rwa [setPc_pc, jumpTarget_toNat] at hland

/-- Settles O24: opcode 2 selects `j`, whose effect writes `pc` alone, and the loop adds 1 to the target. -/
theorem jSetsPcToTheTargetAndLandsOnePast : Obligations.JSetsPcToTheTargetAndLandsOnePast :=
  ⟨jTypeRow_of_decodeOpcode (by decide) fun _ => decodeOpcode_j,
    fun target s => ⟨_, exec_j target s, jumpTarget_toNat target, onlyPc_setPc ..⟩,
    fun _ _ h => lands_j h⟩

/-! ## Where a step leaves `pc` (R54, R95, R98) -/

/-- The loop increment, as a number. -/
theorem finishStep_pc_toNat {s : State} (hst : s.status = .running) (hpc : s.pc.toNat ≤ 2 ^ 26) :
    s.finishStep.pc.toNat = s.pc.toNat + 1 := by
  rw [finishStep_pc_of_running hst, pc_add_loopIncrement_toNat hpc]

/-- The offset of a branch is not negative, and inside instruction memory its target does not wrap. -/
theorem pc_le_branchTarget {s : State} (hp : s.pc.toNat < Config.imemWords) (imm : Imm) :
    s.pc.toNat ≤ (branchTarget imm s).toNat := by
  have hp' : s.pc.toNat < 4096 := hp
  have himm := imm_lt imm
  rw [branchTarget_toNat]
  omega

/-- A transfer whose nominal target lies before its own index is a jump. -/
theorem jump_of_transferTarget_lt {s : State} {i : Instr} {p : Pc} (hp : s.pc.toNat < Config.imemWords)
    (h : transferTarget s i = some p) (hlt : p.toNat < s.pc.toNat) : ∃ target, i = .j target ∨ i = .jal target := by
  cases i with
  | j target => exact ⟨target, .inl rfl⟩
  | jal target => exact ⟨target, .inr rfl⟩
  | beq _ _ imm | bne _ _ imm =>
    obtain ⟨-, hbranch⟩ := Option.ite_none_right_eq_some.mp h
    cases hbranch
    exact absurd hlt (pc_le_branchTarget hp imm).not_gt
  | _ => cases h

theorem jump_of_effect_pc_lt {s u : State} {i : Instr} (hp : s.pc.toNat < Config.imemWords) (h : Effect s i u)
    (hlt : u.pc.toNat < s.pc.toNat) : ∃ target, i = .j target ∨ i = .jal target := by
  cases h with
  | halt | none | reg | data | outOfBounds => exact absurd hlt (lt_irrefl _)
  | pc _ ht => exact jump_of_transferTarget_lt hp ht hlt
  | link target => exact ⟨target, .inr rfl⟩

/-- After an instruction the loop advances `pc`, or FAULT_OOB has ended the step. -/
theorem finishStep_advances_or_stopped {s u : State} {i : Instr} (h : RunsInstr s i) (he : Effect s i u) :
    u.finishStep.pc.toNat = u.pc.toNat + 1 ∨ Stopped u.finishStep := by
  rcases effect_status he with hst | ⟨op, rt, rs, imm, -, -, rfl⟩
  · have hpc := effect_pc_le h.pc_lt he
    exact .inl (finishStep_pc_toNat (hst.trans h.running) (by omega))
  · rw [finishStep_raiseOutOfBounds]
    exact .inr nofun

/-- Settles O41: a core that runs on had 1 added to its `pc`, so the instruction itself moved `pc` backward, and a branch
cannot. -/
theorem backwardTransfersAreJumps : Obligations.BackwardTransfersAreJumps := by
  intro s t i hi hstep hrun hle
  obtain ⟨u, hu, he⟩ := exec_effect i s
  cases (step_of_exec hi hu).symm.trans hstep
  rcases finishStep_advances_or_stopped hi he with hpc | hstop
  · exact jump_of_effect_pc_lt hi.pc_lt he (by omega)
  · exact absurd hrun hstop

/-! ## The host's window (R108, R110; log entry 18) -/

theorem beforeFirstStep_of_pc_pos {s : State} (h : 0 < s.pc.toNat) : s.beforeFirstStep = false := by
  rw [Bool.eq_false_iff, ne_eq, beforeFirstStep_iff]
  rintro ⟨-, hpc⟩
  rw [hpc] at h
  exact absurd h (by decide)

theorem beforeFirstStep_of_step {s t : State} (h : step s = .next t) : t.beforeFirstStep = false := by
  cases stepCase_of_step h with
  | stopped hs => exact beforeFirstStep_of_stopped hs
  | settled _ hs => exact beforeFirstStep_of_stopped hs
  | ran hi he =>
    rcases finishStep_advances_or_stopped hi he with hpc | hstop
    · exact beforeFirstStep_of_pc_pos (by omega)
    · exact beforeFirstStep_of_stopped hstop
  | logged hu =>
    have hlt : s.pc.toNat < 4096 := hu.pc_lt
    have hpc := finishStep_pc_toNat (s := s.logUnsupported (s.readInstr s.pc.toNat)) hu.running
      (by rw [logUnsupported_pc]; omega)
    exact beforeFirstStep_of_pc_pos (by omega)

theorem beforeFirstStep_of_hostWrite {run : Bool} {sel : BitVec 2} {addr : BitVec 12} {v : Word} {s t : State}
    (h : hostWrite run sel addr v s = .next t) : t.beforeFirstStep = s.beforeFirstStep := by
  unfold hostWrite at h
  split at h
  · split at h <;> cases h
    exact beforeFirstStep_pokeHost ..
  · cases h
    rfl

theorem clkEdge_run {inp : Inputs} (hrst : inp.rst = false) (hrun : inp.run = true) (s : State) :
    clkEdge inp s = step s := by
  simp [clkEdge, hrst, hrun]

theorem clkEdge_not_run {inp : Inputs} (hrst : inp.rst = false) (hrun : inp.run = false) (s : State) :
    clkEdge inp s = if inp.hostWe then hostWrite false inp.hostSel inp.hostAddr inp.hostWdata s else .next s := by
  simp [clkEdge, hrst, hrun]

theorem beforeFirstStep_of_clkEdge_not_run {inp : Inputs} {s t : State} (hrst : inp.rst = false)
    (hrun : inp.run = false) (h : clkEdge inp s = .next t) : t.beforeFirstStep = s.beforeFirstStep := by
  rw [clkEdge_not_run hrst hrun] at h
  split at h
  · exact beforeFirstStep_of_hostWrite h
  · cases h
    rfl

/-- Settles O53: a step stops the core or leaves `pc` above 0, and a host write touches neither the status nor `pc`. -/
theorem noStepReturnsToTheHostWindow : Obligations.NoStepReturnsToTheHostWindow := by
  refine ⟨beforeFirstStep_reset, fun _ _ => beforeFirstStep_of_step, fun inp s t hrst hclosed h => ?_,
    fun _ _ _ => beforeFirstStep_of_clkEdge_not_run⟩
  cases hrun : inp.run with
  | true => exact beforeFirstStep_of_step ((clkEdge_run hrst hrun s).symm.trans h)
  | false => exact (beforeFirstStep_of_clkEdge_not_run hrst hrun h).trans hclosed

end Sys2Proof.Proofs
end

section
/-! What a step answers, what it logs and why it stops: the decoded instruction and the loop after it, the record of an
unsupported word, and the reason behind each stop status (R96 to R103). -/

namespace Sys2Proof.Proofs

open Sys2Proof.Machine Sys2Proof.Claims

/-! ## The end of a step that ran an instruction (R98 to R100, R102) -/

/-- The computed status, in the words of the statements: a cleared RunFlag goes before `pc`. -/
theorem stopStatus_eq_statusAt (f : Bool) (p : Pc) :
    stopStatus f p = if f = false then .halted else statusAt p.toNat := rfl

/-- What an instruction left with another status than RUNNING is past the loop: FAULT_OOB ended the step. -/
theorem finishStep_of_effect_stopped {s u : State} {i : Instr} (h : RunsInstr s i) (he : Effect s i u)
    (hne : u.status ≠ .running) : u.finishStep = u := by
  rcases effect_status he with hst | ⟨op, rt, rs, imm, -, -, rfl⟩
  · exact absurd (hst.trans h.running) hne
  · exact finishStep_raiseOutOfBounds ..

/-- Settles O29: the loop ends the step of an instruction that left the core RUNNING, and leaves a fault alone. -/
theorem stepRunsTheDecodedInstruction : Obligations.StepRunsTheDecodedInstruction := by
  intro s t i hi hexec
  refine ⟨fun hrun => ?_, fun hne => ?_⟩
  · rw [step_of_exec hi hexec, finishStep_of_running hrun, stopStatus_eq_statusAt]
  · rw [step_of_exec hi hexec, finishStep_of_effect_stopped hi (effect_of_exec hexec) hne]

/-- Settles O35: each case of a step answers a next state. -/
theorem stepAlwaysAnswersANextState : Obligations.StepAlwaysAnswersANextState := by
  intro s
  obtain ⟨t, hstep, -⟩ := step_stepCase s
  exact ⟨t, hstep⟩

/-! ## Unsupported words (R101) -/

/-- Settles O30: logging the word changes the log alone, and the loop then moves `pc` and computes the status. -/
theorem unsupportedWordIsLoggedAndSkipped : Obligations.UnsupportedWordIsLoggedAndSkipped := by
  intro s h
  have hlt : s.pc.toNat < 4096 := h.pc_lt
  have hpc : (s.pc + Config.loopIncrement).toNat = s.pc.toNat + 1 := pc_add_loopIncrement_toNat (by omega)
  have hrun : (s.logUnsupported (s.readInstr s.pc.toNat)).status = .running := h.running
  refine ⟨_, step_unsupported h, finishStep_log _, ?_, ?_, (finishStep_runFlag _).trans h.flag,
    fun q => finishStep_readReg _ q, fun i => finishStep_readInstr _ i, fun i => finishStep_readData _ i⟩
  · rw [finishStep_pc_of_running hrun, logUnsupported_pc, hpc]
  · rw [finishStep_status_of_running hrun, logUnsupported_runFlag, logUnsupported_pc, h.flag, stopStatus_true, hpc]

theorem unsupEvent_of_runsUnsupported {s : State} (h : RunsUnsupported s) :
    unsupEvent s = some ⟨s.pc, s.readInstr s.pc.toNat⟩ := by
  obtain ⟨e, he⟩ := h.decoded
  have hd : decode s.fetch (s.readReg Config.haltReg) = .error e := he
  rw [unsupEvent, if_pos ((fetches_iff s).mpr h.toSteps)]
  simp only [hd]
  rfl

/-- A step that fetches nothing, or fetches a word that decodes, has no event. -/
theorem unsupEvent_of_not_runsUnsupported {s : State} (h : ¬RunsUnsupported s) : unsupEvent s = none := by
  by_cases hs : Steps s
  · obtain ⟨i, hi⟩ := (steps_decodes hs).resolve_right h
    have hd : decode s.fetch (s.readReg Config.haltReg) = .ok i := hi.decoded
    rw [unsupEvent, if_pos ((fetches_iff s).mpr hs)]
    simp only [hd]
  · rw [unsupEvent, if_neg (mt (fetches_iff s).mp hs)]

theorem unsupEvent_eq_some_iff (s : State) (e : UnsupportedEvent) :
    unsupEvent s = some e ↔ RunsUnsupported s ∧ e = ⟨s.pc, s.readInstr s.pc.toNat⟩ := by
  by_cases h : RunsUnsupported s
  · rw [unsupEvent_of_runsUnsupported h, Option.some_inj]
    exact ⟨fun he => ⟨h, he.symm⟩, fun ⟨_, he⟩ => he.symm⟩
  · rw [unsupEvent_of_not_runsUnsupported h]
    exact ⟨nofun, fun ⟨hu, _⟩ => absurd hu h⟩

theorem step_log {s t : State} (h : step s = .next t) : t.log = s.log ++ (unsupEvent s).toList := by
  have kept (hlog : t.log = s.log) (hu : ¬RunsUnsupported s) : t.log = s.log ++ (unsupEvent s).toList := by
    rw [unsupEvent_of_not_runsUnsupported hu, hlog, Option.toList_none, List.append_nil]
  cases stepCase_of_step h with
  | stopped hs => exact kept rfl fun hu => hs hu.running
  | settled hr hs => exact kept rfl fun hu => hs ((steps_iff s).mp hu.toSteps).2
  | ran hi he => exact kept ((finishStep_log _).trans (effect_log he)) fun hu => not_runsInstr_of_unsupported hu hi
  | logged hu => rw [unsupEvent_of_runsUnsupported hu, finishStep_log, logUnsupported_log, Option.toList_some]

/-- Settles O40: of the cases of a step only that of an unsupported word writes the log, and it appends the event. -/
theorem logIsTheSequenceOfUnsupportedEvents : Obligations.LogIsTheSequenceOfUnsupportedEvents :=
  fun s _ h => ⟨step_log h, unsupEvent_eq_some_iff s⟩

/-! ## Why a step stops the core (R99, R100, R102) -/

/-- A `lw` or `sw` outside data memory ends its step with FAULT_OOB and nothing else. -/
theorem step_outOfBounds {s : State} {op : AccessOp} {rt rs : Reg} {imm : Imm} (h : RunsInstr s (op.instr rt rs imm))
    (hout : Config.dmemWords ≤ (effectiveAddress rs imm s).toNat) :
    step s = .next (s.raiseOutOfBounds (effectiveAddress rs imm s) op) := by
  cases op with
  | lw => exact step_of_exec_raiseOutOfBounds h (exec_lw_outside hout)
  | sw => exact step_of_exec_raiseOutOfBounds h (exec_sw_outside hout)

theorem finishStep_status_eq_stopStatus {s : State} (h : s.status = .running) :
    s.finishStep.status = stopStatus s.finishStep.runFlag s.finishStep.pc := by
  rw [finishStep_status_of_running h, finishStep_runFlag, finishStep_pc_of_running h]

/-- The loop computes the status of every step but one: an access outside data memory. -/
theorem step_status {s t : State} (h : Steps s) (hstep : step s = .next t) :
    t.status = stopStatus t.runFlag t.pc ∨
      ∃ op rt rs imm, RunsInstr s (AccessOp.instr op rt rs imm) ∧
        Config.dmemWords ≤ (effectiveAddress rs imm s).toNat ∧ t = s.raiseOutOfBounds (effectiveAddress rs imm s) op := by
  cases stepCase_of_step hstep with
  | stopped hs => exact absurd h.running hs
  | settled _ hs => exact absurd ((steps_iff s).mp h).2 hs
  | ran hi he =>
    rcases effect_status he with hst | ⟨op, rt, rs, imm, rfl, hout, rfl⟩
    · exact .inl (finishStep_status_eq_stopStatus (hst.trans h.running))
    · exact .inr ⟨op, rt, rs, imm, hi, hout, finishStep_raiseOutOfBounds ..⟩
  | logged => exact .inl (finishStep_status_eq_stopStatus h.running)

theorem step_runFlag_eq_false_iff {s t : State} (h : Steps s) (hstep : step s = .next t) :
    t.runFlag = false ↔ RunsInstr s .halt := by
  constructor
  · intro hf
    exact (onlyHaltWritesRunFlag s t hstep (by rw [hf, h.flag]; decide)).1
  · intro hi
    cases (step_of_exec hi (exec_halt s)).symm.trans hstep
    exact finishStep_runFlag _

theorem step_halted_iff {s t : State} (h : Steps s) (hstep : step s = .next t) :
    t.status = .halted ↔ RunsInstr s .halt := by
  rw [← step_runFlag_eq_false_iff h hstep]
  rcases step_status h hstep with hst | ⟨op, rt, rs, imm, -, -, rfl⟩
  · rw [hst, stopStatus_eq_halted_iff]
  · rw [raiseOutOfBounds_status, raiseOutOfBounds_runFlag, h.flag]
    exact ⟨nofun, nofun⟩

theorem step_neverTerminated_iff {s t : State} (h : Steps s) (hstep : step s = .next t) :
    t.status = .neverTerminated ↔ t.runFlag = true ∧ Config.imemWords ≤ t.pc.toNat := by
  rcases step_status h hstep with hst | ⟨op, rt, rs, imm, -, -, rfl⟩
  · rw [hst, stopStatus_eq_neverTerminated_iff]
  · rw [raiseOutOfBounds_status, raiseOutOfBounds_pc]
    exact ⟨nofun, fun ⟨_, hpc⟩ => absurd h.pc_lt hpc.not_gt⟩

theorem step_faultOob_iff {s t : State} (h : Steps s) (hstep : step s = .next t) (pc : Pc) (ea : Word) (op : AccessOp) :
    t.status = .faultOob pc ea op ↔ pc = s.pc ∧ Config.dmemWords ≤ ea.toNat ∧
      ∃ rt rs imm, RunsInstr s (op.instr rt rs imm) ∧ effectiveAddress rs imm s = ea := by
  constructor
  · intro hfault
    rcases step_status h hstep with hst | ⟨op', rt, rs, imm, hi, hout, rfl⟩
    · exact (stopStatus_ne_faultOob _ _ _ _ _ (hst.symm.trans hfault)).elim
    · cases hfault
      exact ⟨rfl, hout, rt, rs, imm, hi, rfl⟩
  · rintro ⟨rfl, hout, rt, rs, imm, hi, rfl⟩
    cases (step_outOfBounds hi hout).symm.trans hstep
    rfl

/-- Settles O33: the loop's computed status gives HALTED and NEVER_TERMINATED, and only an access outside data memory
goes past it. -/
theorem stepStopsForExactlyTheseReasons : Obligations.StepStopsForExactlyTheseReasons :=
  fun _ _ h hstep => ⟨step_halted_iff h hstep, step_neverTerminated_iff h hstep, step_faultOob_iff h hstep⟩

end Sys2Proof.Proofs
end

section
/-! The host load: a list of words is written from index 0 upward, and a line past the capacity refuses the load (R108,
R119). -/

namespace Sys2Proof.Proofs

open Sys2Proof.Machine Sys2Proof.Claims

/-! ## Writing a list of words to a space -/

/-- The words of `ws` written to the indices of a space from `i` upward. -/
def writeWords (space : Space) : Nat → List Word → State → State
  | _, [], s => s
  | i, w :: ws, s => writeWords space (i + 1) ws (s.writeSpace space i w)

/-- Load lines that spell words and fit are written, and the load goes on behind them. -/
theorem loadLines_lines_append {space : Space} (rest : List (Option Nat)) (ws : List Word) :
    ∀ {i : Nat} {s : State}, i + ws.length ≤ space.words →
      loadLines space i (lines ws ++ rest) s = loadLines space (i + ws.length) rest (writeWords space i ws s) := by
  induction ws with
  | nil => exact fun _ => rfl
  | cons w ws ih =>
    intro i s hfit
    rw [List.length_cons] at hfit
    calc loadLines space i (some w.toNat :: (lines ws ++ rest)) s
        = loadLines space (i + 1) (lines ws ++ rest) (s.writeSpace space i w) := loadLines_word (by omega) ..
      _ = loadLines space (i + 1 + ws.length) rest (writeWords space i (w :: ws) s) := ih (by omega)
      _ = loadLines space (i + (w :: ws).length) rest (writeWords space i (w :: ws) s) := by
          rw [List.length_cons, Nat.add_right_comm, Nat.add_assoc]

/-- In the host's window, and where the words fit, the load takes what follows them from behind them. -/
theorem hostLoad_lines_append {space : Space} {ws : List Word} {s : State} (h : s.beforeFirstStep = true)
    (hfit : ws.length ≤ space.words) (rest : List (Option Nat)) :
    hostLoad false space (lines ws ++ rest) s = loadLines space ws.length rest (writeWords space 0 ws s) := by
  rw [hostLoad_inside h, loadLines_lines_append rest ws (by omega), Nat.zero_add]

theorem hostLoad_lines {space : Space} {ws : List Word} {s : State} (h : s.beforeFirstStep = true)
    (hfit : ws.length ≤ space.words) : hostLoad false space (lines ws) s = .next (writeWords space 0 ws s) := by
  have happend := hostLoad_lines_append h hfit []
  rwa [List.append_nil] at happend

/-! ## What the space then holds -/

theorem peekHost_writeWords_lt {space : Space} {k : Nat} (ws : List Word) :
    ∀ {i : Nat} {s : State}, k < i →
      (writeWords space i ws s).peekHost (.memory space) k = s.peekHost (.memory space) k := by
  induction ws with
  | nil => exact fun _ => rfl
  | cons w ws ih => exact fun hk => (ih (Nat.lt_succ_of_lt hk)).trans (peekHost_writeSpace_ne _ space w hk.ne)

theorem writeSpace_memories_wf {s : State} {space : Space} {i : Nat} (hi : Memory.wf Config.imemWords s.imem)
    (hd : Memory.wf Config.dmemWords s.dmem) (hlt : i < space.words) (v : Word) :
    Memory.wf Config.imemWords (s.writeSpace space i v).imem ∧ Memory.wf Config.dmemWords (s.writeSpace space i v).dmem := by
  cases space with
  | instruction => exact ⟨write_wf hi hlt v, hd⟩
  | data => exact ⟨hi, write_wf hd hlt v⟩

/-- The word `k` places behind the first index is the `k`-th one written, or the old one where the list has ended. -/
theorem peekHost_writeWords_add {space : Space} (ws : List Word) :
    ∀ {i k : Nat} {s : State}, Memory.wf Config.imemWords s.imem → Memory.wf Config.dmemWords s.dmem →
      i + ws.length ≤ space.words →
      (writeWords space i ws s).peekHost (.memory space) (i + k) = ws[k]?.getD (s.peekHost (.memory space) (i + k)) := by
  induction ws with
  | nil => exact fun _ _ _ => rfl
  | cons w ws ih =>
    intro i k s hi hd hfit
    rw [List.length_cons] at hfit
    obtain ⟨hi', hd'⟩ := writeSpace_memories_wf hi hd (space := space) (by omega : i < space.words) w
    cases k with
    | zero => exact (peekHost_writeWords_lt ws (Nat.lt_succ_self i)).trans (peekHost_writeSpace_same hi hd space i w)
    | succ k =>
      have hrest := ih (k := k) hi' hd' (by omega : i + 1 + ws.length ≤ space.words)
      rwa [Nat.add_assoc, Nat.add_comm 1 k, peekHost_writeSpace_ne s space w (by omega : i + (k + 1) ≠ i)] at hrest

/-! ## What else changes: nothing -/

/-- `t` differs from `s` at most in the words of a space. -/
def OnlySpace (space : Space) (s t : State) : Prop :=
  (∀ other, other ≠ space → ∀ i, t.peekHost (.memory other) i = s.peekHost (.memory other) i) ∧
    SameRegs s t ∧ t.pc = s.pc ∧ SameControl s t

theorem onlySpace_refl (space : Space) (s : State) : OnlySpace space s s :=
  ⟨fun _ _ _ => rfl, fun _ => rfl, rfl, rfl, rfl, rfl⟩

theorem onlySpace_trans {space : Space} {s t u : State} (hst : OnlySpace space s t) (htu : OnlySpace space t u) :
    OnlySpace space s u := by
  obtain ⟨hother, hregs, hpc, hflag, hstatus, hlog⟩ := hst
  obtain ⟨hother', hregs', hpc', hflag', hstatus', hlog'⟩ := htu
  exact ⟨fun o ho i => (hother' o ho i).trans (hother o ho i), fun q => (hregs' q).trans (hregs q), hpc'.trans hpc,
    hflag'.trans hflag, hstatus'.trans hstatus, hlog'.trans hlog⟩

theorem peekHost_writeSpace_other {space other : Space} (s : State) (i k : Nat) (v : Word) (h : other ≠ space) :
    (s.writeSpace space i v).peekHost (.memory other) k = s.peekHost (.memory other) k := by
  cases space with
  | instruction =>
    cases other with
    | instruction => exact absurd rfl h
    | data => rfl
  | data =>
    cases other with
    | instruction => rfl
    | data => exact absurd rfl h

theorem onlySpace_writeSpace (space : Space) (s : State) (i : Nat) (v : Word) :
    OnlySpace space s (s.writeSpace space i v) := by
  refine ⟨fun other hne k => peekHost_writeSpace_other s i k v hne, ?_⟩
  cases space <;> exact ⟨fun _ => rfl, rfl, rfl, rfl, rfl⟩

theorem onlySpace_writeWords {space : Space} (ws : List Word) :
    ∀ (i : Nat) (s : State), OnlySpace space s (writeWords space i ws s) := by
  induction ws with
  | nil => exact fun _ s => onlySpace_refl space s
  | cons w ws ih => exact fun i s => onlySpace_trans (onlySpace_writeSpace space s i w) (ih (i + 1) _)

/-- Settles O46: in the window a load of words that fit is `writeWords` from index 0, and outside it a load does nothing. -/
theorem hostLoadWritesExactlyTheFirstWords : Obligations.HostLoadWritesExactlyTheFirstWords := by
  refine ⟨fun space ws s hi hd hbefore hfit => ?_, fun run space ls s hout => ?_⟩
  · refine ⟨_, hostLoad_lines hbefore hfit, fun k => ?_, onlySpace_writeWords ws 0 s⟩
    have hpeek := peekHost_writeWords_add ws (k := k) hi hd (by omega : 0 + ws.length ≤ space.words)
    rwa [Nat.zero_add] at hpeek
  · exact hostLoad_outside (hostMayWrite_outside hout) space ls

/-- Settles O47: the words that fit are loaded, and the next line lies past the capacity. -/
theorem hostLoadRefusesMoreThanCapacity : Obligations.HostLoadRefusesMoreThanCapacity := by
  intro space ws s hbefore hlt
  have hlen : (ws.take space.words).length = space.words := List.length_take_of_le hlt.le
  have hsplit : lines ws = lines (ws.take space.words) ++
      some ws[space.words].toNat :: lines (ws.drop (space.words + 1)) := by
    conv_lhs => rw [← List.take_append_drop space.words ws, List.drop_eq_getElem_cons hlt]
    exact List.map_append
  rw [hsplit, hostLoad_lines_append hbefore hlen.le, loadLines_full hlen.ge]

end Sys2Proof.Proofs
end

section
/-! The host load: a line that spells no word refuses the load (R119, D14). -/

namespace Sys2Proof.Proofs

open Sys2Proof.Machine Sys2Proof.Claims

/-- Settles O48: the words before the bad line fit and are loaded, and the bad line then stands at an index inside the
target, where it refuses the load. -/
theorem hostLoadRefusesAMalformedLine : Obligations.HostLoadRefusesAMalformedLine := by
  intro space ws bad rest s hbefore hlt hbad
  calc hostLoad false space (lines ws ++ bad :: rest) s
      = loadLines space ws.length (bad :: rest) (writeWords space 0 ws s) := hostLoad_lines_append hbefore hlt.le _
    _ = .refused (.malformedInput ws.length) := loadLines_bad hlt hbad ..

end Sys2Proof.Proofs
end

section
/-! A load that follows a store: the step of the store leaves the core before the load's step, and the load reads the
stored word (R44, R131). -/

namespace Sys2Proof.Proofs

open Sys2Proof.Machine Sys2Proof.Claims

/-- After an effect that neither stops the core nor runs past the end, the loop takes another step. -/
theorem steps_finishStep {s : State} (hst : s.status = .running) (hf : s.runFlag = true)
    (hlt : s.pc.toNat + 1 < Config.imemWords) : Steps s.finishStep := by
  have hlt' : s.pc.toNat + 1 < 4096 := hlt
  have hpc : s.finishStep.pc.toNat < Config.imemWords := by
    rwa [finishStep_pc_toNat hst (by omega)]
  refine ⟨?_, by rw [finishStep_runFlag, hf], hpc⟩
  rw [finishStep_status_eq_stopStatus hst, finishStep_runFlag]
  exact (stopStatus_eq_running_iff ..).mpr ⟨hf, hpc⟩

/-- A store leaves the next word of instruction memory, and the register that its decoding looks at, as they were. -/
theorem runsInstr_after_store {s : State} {i : Instr} (h : Steps s) (hlt : s.pc.toNat + 1 < Config.imemWords)
    (hd : decode (s.readInstr (s.pc.toNat + 1)) (s.readReg Config.haltReg) = .ok i) (a : Nat) (v : Word) :
    RunsInstr (s.writeData a v).finishStep i := by
  have hlt' : s.pc.toNat + 1 < 4096 := hlt
  have hpc : (s.writeData a v).finishStep.pc.toNat = s.pc.toNat + 1 :=
    finishStep_pc_toNat (s := s.writeData a v) h.running (by rw [writeData_pc]; omega)
  refine ⟨steps_finishStep h.running h.flag hlt, ?_⟩
  rw [hpc, finishStep_readInstr, finishStep_readReg]
  exact hd

/-- A `lw` whose address is the word just stored loads the value stored there. -/
theorem exists_step_lw_after_store {s : State} {a : Nat} {v : Word} {rt rs : Reg} {imm : Imm}
    (hwf : Memory.wf Config.dmemWords s.dmem) (h : RunsInstr (s.writeData a v).finishStep (.lw rt rs imm))
    (hea : (effectiveAddress rs imm s).toNat = a) (ha : a < Config.dmemWords) :
    ∃ t, step (s.writeData a v).finishStep = .next t ∧ t.readReg rt = v := by
  have haddr : (effectiveAddress rs imm (s.writeData a v).finishStep).toNat = a := by
    rw [effectiveAddress_congr (finishStep_readReg ..), ← hea]
    rfl
  refine ⟨_, step_of_exec h (exec_lw_inside (haddr.trans_lt ha)), ?_⟩
  rw [finishStep_readReg, readReg_writeReg_same, haddr, finishStep_readData, readData_writeData_same hwf]

/-- Settles O42: the store changes neither the word of the load nor its address, and the load reads the word written. -/
theorem loadAfterStoreReturnsTheStoredWord : Obligations.LoadAfterStoreReturnsTheStoredWord := by
  intro s rt rs imm rt' rs' imm' hwf hsw hlt hlw hin hea
  have hload := runsInstr_after_store hsw.toSteps hlt hlw (effectiveAddress rs imm s).toNat (s.readReg rt)
  obtain ⟨u, hstep, hread⟩ := exists_step_lw_after_store hwf hload (congrArg BitVec.toNat hea) hin
  exact ⟨_, u, step_of_exec hsw (exec_sw_inside hin), hstep, hread⟩

end Sys2Proof.Proofs
end

section
/-! The boot sequence: the two loads place the program and the data, and the presets reach the registers alone (R108,
R110, R128). -/

namespace Sys2Proof.Proofs

open Sys2Proof.Machine Sys2Proof.Claims

/-! ## Presets (R110) -/

/-- The last preset of a register stands in it, and a register without one keeps its value. -/
theorem readReg_presetRegs (presets : List (Reg × Word)) (r : Reg) :
    ∀ s : State, (presetRegs presets s).readReg r = (presets.reverse.lookup r).getD (s.readReg r) := by
  induction presets with
  | nil => exact fun _ => rfl
  | cons p rest ih =>
    obtain ⟨q, v⟩ := p
    intro s
    have hlast : (List.lookup r [(q, v)]).getD (s.readReg r) = (s.writeReg q v).readReg r := by
      rw [readReg_writeReg, List.lookup_cons]
      by_cases h : r = q
      · simp [h]
      · simp [h, beq_false_of_ne h]
    rw [presetRegs, ih, List.reverse_cons, List.lookup_append, Option.getD_or, hlast]

/-- What no register write touches, the presets keep. -/
theorem presetRegs_keeps {α : Type} (f : State → α) (hf : ∀ s r v, f (State.writeReg s r v) = f s)
    (presets : List (Reg × Word)) : ∀ s : State, f (presetRegs presets s) = f s := by
  induction presets with
  | nil => exact fun _ => rfl
  | cons p rest ih => exact fun s => (ih (s.writeReg p.1 p.2)).trans (hf s p.1 p.2)

/-! ## The sequence (R128) -/

theorem readReg_reset (r : Reg) : State.reset.readReg r = 0 := by
  simp [State.readReg, State.reset, Vector.get]

theorem beforeFirstStep_of_unstarted {s : State} (h : Unstarted s) : s.beforeFirstStep = true :=
  (beforeFirstStep_iff s).mpr ⟨h.running, h.pc_zero⟩

theorem sameControl_of_unstarted {s : State} (h : Unstarted s) : SameControl State.reset s :=
  ⟨h.flag, h.running, h.log_nil⟩

/-- Two loads that are not refused make a boot that presets the registers of the loaded state. -/
theorem boot_of_hostLoad {imemLines dmemLines : List (Option Nat)} {s t : State}
    (hi : hostLoad false .instruction imemLines State.reset = .next s) (hd : hostLoad false .data dmemLines s = .next t)
    (presets : List (Reg × Word)) : boot imemLines dmemLines presets = .next (presetRegs presets t) := by
  have ht : Unstarted t := unstarted_hostLoad (unstarted_hostLoad unstarted_reset hi) hd
  simp only [boot, hi, hd, mapNext, hostPreset_inside (beforeFirstStep_of_unstarted ht)]

/-- Settles O54: each load places its words and keeps the rest (O46), and the presets then write registers alone. -/
theorem bootPlacesTheProgramTheDataAndThePresets : Obligations.BootPlacesTheProgramTheDataAndThePresets := by
  intro ws ds presets hws hds
  obtain ⟨hloads, -⟩ := hostLoadWritesExactlyTheFirstWords
  obtain ⟨s, hs, hinstr, hother, hregs, -⟩ :=
    hloads .instruction ws State.reset (wf_nil _) (wf_nil _) beforeFirstStep_reset hws
  have hus : Unstarted s := unstarted_hostLoad unstarted_reset hs
  obtain ⟨t, ht, hdata, hother', hregs', -⟩ :=
    hloads .data ds s hus.imem_wf hus.dmem_wf (beforeFirstStep_of_unstarted hus) hds
  have hboot := boot_of_hostLoad hs ht presets
  have hu : Unstarted (presetRegs presets t) := unstarted_boot hboot
  refine ⟨_, hboot, fun i => ?_, fun i => ?_, fun r => ?_, hu.pc_zero, sameControl_of_unstarted hu⟩
  · calc (presetRegs presets t).readInstr i
        = t.readInstr i := presetRegs_keeps (·.readInstr i) (fun _ _ _ => rfl) presets t
      _ = s.readInstr i := hother' .instruction (by decide) i
      _ = ws[i]?.getD 0 := hinstr i
  · calc (presetRegs presets t).readData i
        = t.readData i := presetRegs_keeps (·.readData i) (fun _ _ _ => rfl) presets t
      _ = ds[i]?.getD (s.readData i) := hdata i
      _ = ds[i]?.getD 0 := congrArg _ (hother .data (by decide) i)
  · rw [readReg_presetRegs, hregs', hregs, readReg_reset]

end Sys2Proof.Proofs
end

section
/-! Encoding what was decoded (R51, R57, R68): a word is the sum of its shifted fields, so an instruction that the word
spells encodes to it. -/

namespace Sys2Proof.Proofs

open Sys2Proof.Machine Sys2Proof.Claims

/-! ## A word is the number of the instruction it spells (R52, R68) -/

theorem toNat_of_rTypeBits {w : Word} {funct : Nat} {rd rs rt : Reg} {shamt : Shamt}
    (h : RTypeBits w funct rd rs rt shamt) : w.toNat = rNumber rs rt rd shamt funct := by
  obtain ⟨hop, hfn, hrs, hrt, hrd, hshamt⟩ := h
  simp only [bits] at hop hfn hrs hrt hrd hshamt
  have hw := word_lt w
  rw [rNumber]
  omega

theorem toNat_of_iTypeBits {w : Word} {opcode : Nat} {rs rt : Reg} {imm : Imm} (h : ITypeBits w opcode rs rt imm) :
    w.toNat = iNumber opcode rs rt imm := by
  obtain ⟨hop, hrs, hrt, himm⟩ := h
  simp only [bits] at hop hrs hrt himm
  have hw := word_lt w
  rw [iNumber]
  omega

theorem toNat_of_jTypeBits {w : Word} {opcode : Nat} {target : Target} (h : JTypeBits w opcode target) :
    w.toNat = opcode * 2 ^ 26 + target.toNat := by
  obtain ⟨hop, htarget⟩ := h
  simp only [bits] at hop htarget
  have hw := word_lt w
  omega

theorem toNat_of_spells {w v : Word} {i : Instr} (h : Spells w v i) : w.toNat = wordNumber i := by
  cases i with
  | halt => exact congrArg BitVec.toNat h.1
  | nop => exact congrArg BitVec.toNat (show w = 0 from h)
  | sll => exact toNat_of_rTypeBits h.2
  | add | and | nor | or | slt | sra | srl | sub => exact toNat_of_rTypeBits h
  | addi | andi | ori | lw | sw | beq | bne => exact toNat_of_iTypeBits h
  | j | jal => exact toNat_of_jTypeBits h

/-! ## The round trip -/

theorem encode_of_decode {w v : Word} {i : Instr} (h : decode w v = .ok i) : encode i = w := by
  apply BitVec.eq_of_toNat_eq
  calc (encode i).toNat
      = wordNumber i := encodedWordIsTheSumOfItsFields i
    _ = w.toNat := (toNat_of_spells (spells_of_decode h)).symm

/-- The one instruction that is not well formed shares its word with NOP (R61). -/
theorem encode_of_not_wf {i : Instr} (h : i.wf ≠ true) : encode i = 0 := by
  cases i with
  | sll rd rt shamt rs =>
    obtain ⟨rfl, rfl, rfl, rfl⟩ : rd = 0 ∧ rt = 0 ∧ shamt = 0 ∧ rs = 0 := by simpa [Instr.wf, and_assoc] using h
    rfl
  | _ => exact absurd rfl h

theorem wf_of_decode {w v : Word} {i : Instr} (h : decode w v = .ok i) : i.wf = true := by
  by_contra hwf
  have hw : w = 0 := (encode_of_decode h).symm.trans (encode_of_not_wf hwf)
  rw [hw, decode_zero] at h
  cases h
  exact hwf rfl

/-- Settles O2: the fields that spell a word add up to it, and the word 0 decodes to `nop`, never to a shift. -/
theorem encodeAfterDecodeIsIdentity : Obligations.EncodeAfterDecodeIsIdentity :=
  fun _ _ _ h => ⟨wf_of_decode h, encode_of_decode h⟩

end Sys2Proof.Proofs
end

section
/-! What a step does to its surroundings: the stop of an access outside data memory, the independence of the event log,
the word placed for the next fetch, and the trace of `sub` (R21, R60, R102, R108, R112). -/

namespace Sys2Proof.Proofs

open Sys2Proof.Machine Sys2Proof.Claims

/-- Settles O31: the instruction raises FAULT_OOB, and the loop leaves a faulted step alone. -/
theorem outOfBoundsAccessStopsPrecisely : Obligations.OutOfBoundsAccessStopsPrecisely :=
  fun _ _ _ _ _ h hout => step_outOfBounds h hout

/-! ## Another event log (R21) -/

/-- The state with another event log. -/
def setLog (l : List UnsupportedEvent) (s : State) : State := { s with log := l }

theorem setLog_status (l : List UnsupportedEvent) (s : State) : (setLog l s).status = s.status := rfl

theorem exec_setLog (i : Instr) (l : List UnsupportedEvent) (s : State) :
    exec i (setLog l s) = mapNext (setLog l) (exec i s) := by
  cases i with
  | lw | sw => exact .symm (apply_ite (mapNext (setLog l)) ..)
  | beq | bne => exact .symm (congrArg Host.Outcome.next (apply_ite (setLog l) ..))
  | _ => rfl

theorem finishStep_setLog (l : List UnsupportedEvent) (s : State) :
    (setLog l s).finishStep = setLog l s.finishStep := by
  unfold State.finishStep
  rw [setLog_status]
  split <;> rfl

/-- What the next step runs does not depend on the log. -/
theorem runsInstr_setLog {s : State} {i : Instr} (h : RunsInstr s i) (l : List UnsupportedEvent) :
    RunsInstr (setLog l s) i :=
  ⟨⟨h.running, h.flag, h.pc_lt⟩, h.decoded⟩

theorem runsUnsupported_setLog {s : State} (h : RunsUnsupported s) (l : List UnsupportedEvent) :
    RunsUnsupported (setLog l s) :=
  ⟨⟨h.running, h.flag, h.pc_lt⟩, h.decoded⟩

theorem step_setLog_of_runsInstr {s : State} {i : Instr} (h : RunsInstr s i) (l : List UnsupportedEvent) :
    step (setLog l s) = mapNext (setLog l) (step s) := by
  obtain ⟨u, hu, -⟩ := exec_effect i s
  have hu' : exec i (setLog l s) = .next (setLog l u) := by rw [exec_setLog, hu, mapNext]
  rw [step_of_exec (runsInstr_setLog h l) hu', step_of_exec h hu, finishStep_setLog, mapNext]

/-- A step that logs nothing leaves any log as it is. -/
theorem step_setLog_of_not_runsUnsupported {s t : State} (h : ¬RunsUnsupported s) (hstep : step s = .next t)
    (l : List UnsupportedEvent) : step (setLog l s) = .next (setLog l t) := by
  cases stepCase_of_step hstep with
  | stopped hs => exact step_stopped (s := setLog l s) hs
  | settled hr hs => exact step_settles (s := setLog l s) hr hs
  | ran hi => rw [step_setLog_of_runsInstr hi, hstep, mapNext]
  | logged hu => exact absurd hu h

/-- Settles O44: the step that logs an unsupported word appends its record to any log, and every other step keeps the
log that it is given. -/
theorem eventLogDoesNotInfluenceTheStep : Obligations.EventLogDoesNotInfluenceTheStep := by
  intro s t l hstep
  change step (setLog l s) = .next (setLog (l ++ (unsupEvent s).toList) t)
  by_cases hu : RunsUnsupported s
  · cases (step_unsupported hu).symm.trans hstep
    rw [unsupEvent_of_runsUnsupported hu, step_unsupported (runsUnsupported_setLog hu l), ← finishStep_setLog]
    rfl
  · rw [unsupEvent_of_not_runsUnsupported hu, Option.toList_none, List.append_nil]
    exact step_setLog_of_not_runsUnsupported hu hstep l

/-! ## The placed word (R60, R108, R110; log entry 2) -/

theorem decode_of_decodeTableWord {nbits w : Nat} {i : Instr} (h : decodeTableWord nbits w = some i) :
    decode (tableWord nbits w) Config.haltCode = .ok i := by
  unfold decodeTableWord at h
  split at h
  · next hd =>
    cases h
    exact hd
  · cases h

/-- The halt word is placed together with its condition. -/
theorem withFetchWord_of_haltWord {s : State} {nbits w : Nat} (hpc : s.pc.toNat < Config.imemWords)
    (hw : tableWord nbits w = Config.haltWord) :
    s.withFetchWord nbits w =
      (s.writeInstr s.pc.toNat (tableWord nbits w)).writeReg Config.haltReg Config.haltCode := by
  rw [State.withFetchWord, if_pos hpc, if_pos hw]

theorem withFetchWord_of_ne_haltWord {s : State} {nbits w : Nat} (hpc : s.pc.toNat < Config.imemWords)
    (hw : tableWord nbits w ≠ Config.haltWord) :
    s.withFetchWord nbits w = s.writeInstr s.pc.toNat (tableWord nbits w) := by
  rw [State.withFetchWord, if_pos hpc, if_neg hw]

/-- A word placed at `pc` is the next fetch. -/
theorem runsInstr_writeInstr_pc {s : State} {w : Word} {i : Instr} (hwf : Memory.wf Config.imemWords s.imem)
    (hs : Steps s) (hd : decode w (s.readReg Config.haltReg) = .ok i) : RunsInstr (s.writeInstr s.pc.toNat w) i := by
  refine ⟨steps_writeInstr hs _ w, ?_⟩
  rw [writeInstr_pc, readInstr_writeInstr_same hwf, writeInstr_readReg, hd]

/-- Settles O45: the halt word gets its register preset, and no other word's decoding reads that register. -/
theorem placedWordIsTheNextInstruction : Obligations.PlacedWordIsTheNextInstruction := by
  intro s w i hwf hs h
  have hd := decode_of_decodeTableWord h
  by_cases hw : tableWord 32 w = Config.haltWord
  · rw [withFetchWord_of_haltWord hs.pc_lt hw]
    exact runsInstr_writeInstr_pc (s := s.writeReg Config.haltReg Config.haltCode) hwf
      ⟨hs.running, hs.flag, hs.pc_lt⟩ (by rw [readReg_writeReg_same, hd])
  · rw [withFetchWord_of_ne_haltWord hs.pc_lt hw]
    exact runsInstr_writeInstr_pc hwf hs ((decode_congr_of_ne_haltWord hw _ _).trans hd)

/-! ## The trace of `sub` (R112; log entry 11) -/

theorem subTrace_of_runsInstr_sub {s : State} {rd rs rt : Reg} {shamt : Shamt} (h : RunsInstr s (.sub rd rs rt shamt)) :
    subTrace s = if Config.emitsSubTrace s.pc (s.readReg rs) (s.readReg rt) then some (s.readReg rs, s.readReg rt)
      else none := by
  have hd : decode s.fetch (s.readReg Config.haltReg) = .ok (.sub rd rs rt shamt) := h.decoded
  rw [subTrace, if_pos ((fetches_iff s).mpr h.toSteps)]
  simp only [hd]

/-- No other step has a trace. -/
theorem exists_runsInstr_sub_of_subTrace {s : State} {p : Word × Word} (h : subTrace s = some p) :
    ∃ rd rs rt shamt, RunsInstr s (.sub rd rs rt shamt) := by
  unfold subTrace at h
  split at h
  · next hf =>
    split at h
    · next hd => exact ⟨_, _, _, _, (fetches_iff s).mp hf, hd⟩
    · cases h
  · cases h

/-- Settles O52: only a step that runs `sub` has a trace, and its operands and the free choice determine the trace. -/
theorem subTraceShowsTheOperandsOfSub : Obligations.SubTraceShowsTheOperandsOfSub := by
  intro s a b
  constructor
  · intro htrace
    obtain ⟨rd, rs, rt, shamt, h⟩ := exists_runsInstr_sub_of_subTrace htrace
    rw [subTrace_of_runsInstr_sub h, Option.ite_none_right_eq_some, Option.some_inj, Prod.mk.injEq] at htrace
    obtain ⟨hemits, rfl, rfl⟩ := htrace
    exact ⟨⟨rd, rs, rt, shamt, h, rfl, rfl⟩, hemits⟩
  · rintro ⟨⟨rd, rs, rt, shamt, h, rfl, rfl⟩, hemits⟩
    rw [subTrace_of_runsInstr_sub h, if_pos hemits]

end Sys2Proof.Proofs
end

section
/-! The ports: reset, the clock edges of a stopped and of a running core, and the host's reads and writes (R29, R104,
R106, R108 to R110, R127). -/

namespace Sys2Proof.Proofs

open Sys2Proof.Machine Sys2Proof.Claims

/-! ## Reset (R29, R127) -/

theorem clkEdge_rst {inp : Inputs} (h : inp.rst = true) (s : State) : clkEdge inp s = .next State.reset := if_pos h

/-- Settles O10: an edge with `rst` answers the reset state, whose fields are the construction values. -/
theorem resetIsTheConstructionState : Obligations.ResetIsTheConstructionState :=
  fun _ s hrst => ⟨_, clkEdge_rst hrst s, rfl, readReg_reset, rfl, fun _ => rfl, fun _ => rfl, rfl, rfl, rfl⟩

/-! ## Clock edges without reset (R104, R106) -/

/-- With `run = 0` outside the host's window, the strobe writes nothing. -/
theorem clkEdge_not_run_outside {inp : Inputs} {s : State} (hrst : inp.rst = false) (hrun : inp.run = false)
    (h : s.beforeFirstStep = false) : clkEdge inp s = .next s := by
  rw [clkEdge_not_run hrst hrun, hostWrite_outside (hostMayWrite_outside (.inr h)), ite_self]

theorem clkEdge_stopped {inp : Inputs} {s : State} (hrst : inp.rst = false) (h : Stopped s) :
    clkEdge inp s = .next s := by
  cases hrun : inp.run with
  | true => rw [clkEdge_run hrst hrun, step_stopped h]
  | false => exact clkEdge_not_run_outside hrst hrun (beforeFirstStep_of_stopped h)

theorem run_stopped {s : State} (h : Stopped s) (k : Nat) : core.run k s = .next s := by
  induction k with
  | zero => exact run_zero s
  | succ k ih => rw [run_succ (step_stopped h), ih]

/-- Settles O34: a stopped core's step is empty, and the host's window is closed to it. -/
theorem stoppedCoreNeverChanges : Obligations.StoppedCoreNeverChanges :=
  fun s h => ⟨run_stopped h, fun _ hrst => ⟨_, clkEdge_rst hrst s, rfl⟩, fun _ hrst => clkEdge_stopped hrst h⟩

/-- Settles O51: without `rst`, `run` chooses between the step and the host's strobe. -/
theorem clockEdgeStepsOnlyARunningCore : Obligations.ClockEdgeStepsOnlyARunningCore := by
  refine fun inp s hrst => ⟨fun hrun _ => clkEdge_run hrst hrun s, fun _ hs => clkEdge_stopped hrst hs,
    fun hrun hwe => ?_, fun hrun h => ?_⟩
  · rw [clkEdge_not_run hrst hrun, if_pos hwe]
  · rcases h with hwe | hclosed
    · rw [clkEdge_not_run hrst hrun, hwe]
      rfl
    · exact clkEdge_not_run_outside hrst hrun hclosed

/-! ## Host writes (R106, R108, R110) -/

/-- Settles O49: outside its window the host writes nothing; inside, `host_sel` names the register or the memory that the
one write reaches. -/
theorem hostWritesOnlyWhileNotRunning : Obligations.HostWritesOnlyWhileNotRunning := by
  refine fun s v sel addr => ⟨fun run h => hostWrite_outside (hostMayWrite_outside h) sel addr v, fun hopen =>
    ⟨fun hlt => ?_, fun hlt hwf => ?_, fun hwf => ?_⟩⟩
  · exact ⟨_, Fin.ofNat Config.nregs addr.toNat, hostWrite_inside hopen (hostWord_registers hlt) v,
      Nat.mod_eq_of_lt hlt, readReg_writeReg_same .., onlyReg_writeReg ..⟩
  · exact ⟨_, hostWrite_inside hopen (hostWord_data hlt) v, readData_writeData_same hwf .., onlyData_writeData ..⟩
  · exact ⟨_, hostWrite_inside hopen (hostWord_instruction addr) v, readInstr_writeInstr_same hwf ..,
      fun _ hi => readInstr_writeInstr_ne s v hi, fun _ => rfl, rfl, fun _ => rfl, rfl, rfl, rfl⟩

/-! ## Host reads (R106, R109) -/

theorem hostRead_of_running {run : Bool} {s : State} (hrun : run = true) (hst : s.status = .running) (sel : BitVec 2)
    (addr : BitVec 12) : hostRead run sel addr s = none := if_pos ⟨hrun, hst⟩

theorem hostRead_of_not_running {run : Bool} {s : State} (h : run = false ∨ Stopped s) {sel : BitVec 2}
    {addr : BitVec 12} {t : HostTarget} {i : Nat} (hw : hostWord sel addr = some (t, i)) :
    hostRead run sel addr s = some (s.peekHost t i) := by
  have hno : ¬(run = true ∧ s.status = .running) := by
    rintro ⟨rfl, hst⟩
    exact h.elim nofun fun hs => hs hst
  rw [hostRead, if_neg hno]
  simp only [hw]

/-- Settles O50: a core that runs shows the host nothing, and any other shows the word that `host_sel` and `host_addr`
name. -/
theorem hostReadsOnlyWhileNotRunning : Obligations.HostReadsOnlyWhileNotRunning := by
  refine fun s run addr => ⟨fun hrun hst sel => hostRead_of_running hrun hst sel addr, fun h =>
    ⟨hostRead_of_not_running h (hostWord_instruction addr),
      fun hlt => hostRead_of_not_running h (hostWord_data hlt), fun r hr => ?_⟩⟩
  have hreg : Fin.ofNat Config.nregs addr.toNat = r := by rw [hr, Fin.ofNat_val_eq_self]
  rw [hostRead_of_not_running h (hostWord_registers (hr ▸ r.isLt)), State.peekHost, hreg]

end Sys2Proof.Proofs
end
